-- ==== Sys2Proof/Word.lean ====
section
/-! DEFINITION. The widths of the engine (spec/00_scope.md R5, R6): bytes, 16-bit words, 4-bit fields, 12-bit addresses. -/

namespace Sys2Proof

/-- A memory byte, a general register, a timer, the field kk: 8 bits (R5). -/
abbrev Byte := BitVec 8

/-- An instruction word, `I`, `pc`, a stack entry: 16 bits (R5). -/
abbrev Word := BitVec 16

/-- The fields x, y, n and the decoder's keys; a key index: 4 bits (R92, R242). -/
abbrev Nibble := BitVec 4

/-- The address immediate nnn: 12 bits (R92). -/
abbrev Addr := BitVec 12

end Sys2Proof
end

