-- ==== Sys2Proof/Syntax.lean ====
section
/-! DEFINITION. The instructions: one constructor per row of spec/opcode_table.json, with the operand fields of
spec/30_encoding.md R92 at their widths. Bits the decoder ignores (R96) are no operands and are not held. -/

namespace Sys2Proof

/-- The 34 instructions of R97 and the no-op of R98. -/
inductive Instr where
  /-- CLS (R190). -/
  | cls
  /-- RET (R120). -/
  | ret
  /-- JP addr (R121). -/
  | jp (nnn : Addr)
  /-- CALL addr (R122). -/
  | call (nnn : Addr)
  /-- SE Vx, kk (R124). -/
  | seVxKk (x : Nibble) (kk : Byte)
  /-- SNE Vx, kk (R125). -/
  | sneVxKk (x : Nibble) (kk : Byte)
  /-- SE Vx, Vy (R126). -/
  | seVxVy (x y : Nibble)
  /-- LD Vx, kk (R140). -/
  | ldVxKk (x : Nibble) (kk : Byte)
  /-- ADD Vx, kk (R141). -/
  | addVxKk (x : Nibble) (kk : Byte)
  /-- LD Vx, Vy (R144). -/
  | ldVxVy (x y : Nibble)
  /-- OR Vx, Vy (R145). -/
  | orVxVy (x y : Nibble)
  /-- AND Vx, Vy (R146). -/
  | andVxVy (x y : Nibble)
  /-- XOR Vx, Vy (R147). -/
  | xorVxVy (x y : Nibble)
  /-- ADD Vx, Vy (R148). -/
  | addVxVy (x y : Nibble)
  /-- SUB Vx, Vy (R149). -/
  | subVxVy (x y : Nibble)
  /-- SHR Vx (R150). -/
  | shrVx (x : Nibble)
  /-- SUBN Vx, Vy (R151). -/
  | subnVxVy (x y : Nibble)
  /-- SHL Vx (R152). -/
  | shlVx (x : Nibble)
  /-- SNE Vx, Vy (R127). -/
  | sneVxVy (x y : Nibble)
  /-- LD I, addr (R170). -/
  | ldIAddr (nnn : Addr)
  /-- JP V0, addr (R123). -/
  | jpV0 (nnn : Addr)
  /-- RND Vx, kk (R216). -/
  | rndVxKk (x : Nibble) (kk : Byte)
  /-- DRW Vx, Vy, n (R192). -/
  | drwVxVyN (x y n : Nibble)
  /-- SKP Vx (R210). -/
  | skpVx (x : Nibble)
  /-- SKNP Vx (R211). -/
  | sknpVx (x : Nibble)
  /-- LD Vx, DT (R213). -/
  | ldVxDt (x : Nibble)
  /-- LD Vx, K (R212). -/
  | ldVxK (x : Nibble)
  /-- LD DT, Vx (R214). -/
  | ldDtVx (x : Nibble)
  /-- LD ST, Vx (R215). -/
  | ldStVx (x : Nibble)
  /-- ADD I, Vx (R171). -/
  | addIVx (x : Nibble)
  /-- LD F, Vx (R172). -/
  | ldFVx (x : Nibble)
  /-- LD B, Vx (R173). -/
  | ldBVx (x : Nibble)
  /-- LD [I], Vx (R174). -/
  | ldMemVx (x : Nibble)
  /-- LD Vx, [I] (R175). -/
  | ldVxMem (x : Nibble)
  /-- NOP.unmapped, with the word that matched no row (R98). -/
  | nopUnmapped (word : Word)
  deriving DecidableEq, Repr

end Sys2Proof
end

