-- ==== Sys2Proof/WellFormed.lean ====
section
/-! DEFINITION. Which terms of Instr are instructions. Every operand field has its exact width in its type, so the
one check left is that the word of a no-op is an unmapped word of spec/30_encoding.md R99, family by family. -/

namespace Sys2Proof

/-- R99: the unmapped words of each family; families 1 to 7, 9 and A to D have none. -/
def unmappedWord (w : Word) : Bool :=
  let family := w.extractLsb' 12 4
  let low := w.extractLsb' 0 4
  let byte := w.extractLsb' 0 8
  (family == 0x0#4 && !([0x0#4, 0xE#4].contains low)) ||
  (family == 0x8#4 && [0x8#4, 0x9#4, 0xA#4, 0xB#4, 0xC#4, 0xD#4, 0xF#4].contains low) ||
  (family == 0xE#4 && !([0x1#4, 0xE#4].contains low)) ||
  (family == 0xF#4 &&
    !([0x07#8, 0x0A#8, 0x15#8, 0x18#8, 0x1E#8, 0x29#8, 0x33#8, 0x55#8, 0x65#8].contains byte))

/-- An instruction is well formed unless it is a no-op of a word that some row of R97 matches. -/
def Instr.wellFormed : Instr → Bool
  | .nopUnmapped w => unmappedWord w
  | .cls | .ret | .jp _ | .call _ | .seVxKk _ _ | .sneVxKk _ _ | .seVxVy _ _ | .ldVxKk _ _ | .addVxKk _ _
  | .ldVxVy _ _ | .orVxVy _ _ | .andVxVy _ _ | .xorVxVy _ _ | .addVxVy _ _ | .subVxVy _ _ | .shrVx _
  | .subnVxVy _ _ | .shlVx _ | .sneVxVy _ _ | .ldIAddr _ | .jpV0 _ | .rndVxKk _ _ | .drwVxVyN _ _ _
  | .skpVx _ | .sknpVx _ | .ldVxDt _ | .ldVxK _ | .ldDtVx _ | .ldStVx _ | .addIVx _ | .ldFVx _ | .ldBVx _
  | .ldMemVx _ | .ldVxMem _ => true

end Sys2Proof
end

