-- ==== Sys2Proof/Decode.lean ====
section
/-! DEFINITION. The decoder and the encoder of spec/30_encoding.md: fields (R92), the two-level dispatch (R93 to R95),
don't-care bits (R96), the opcode map (R97) and the no-op of unmapped words (R98). The numeric assignment is the
spec's own general knowledge: PRESUMED, notes/assumptions/1.md (unsafe). -/

namespace Sys2Proof

/-! ## Fields (R92) -/

/-- Bits 15:12, the family. -/
def fieldFamily (w : Word) : Nibble := w.extractLsb' 12 4
/-- Bits 11:8, the register index x. -/
def fieldX (w : Word) : Nibble := w.extractLsb' 8 4
/-- Bits 7:4, the register index y. -/
def fieldY (w : Word) : Nibble := w.extractLsb' 4 4
/-- Bits 3:0, the sprite height n and the low-nibble key (R92, R94; spec/90_conflicts.md C1). -/
def fieldN (w : Word) : Nibble := w.extractLsb' 0 4
/-- Bits 7:0, the byte immediate kk and the low-byte key (R92, R95). -/
def fieldKK (w : Word) : Byte := w.extractLsb' 0 8
/-- Bits 11:0, the address immediate nnn. -/
def fieldNNN (w : Word) : Addr := w.extractLsb' 0 12

/-! ## Formats (R100): a word put together from its fields -/

/-- Format A: family, nnn. -/
def packA (family : Nibble) (nnn : Addr) : Word := family ++ nnn
/-- Formats XK and XF8: family, x, low byte. -/
def packXK (family x : Nibble) (kk : Byte) : Word := family ++ x ++ kk
/-- Formats XY, XYF, XYN, XF4 and Z: four nibbles. -/
def packXYN (family x y n : Nibble) : Word := family ++ x ++ y ++ n

/-! ## The decoder -/

/-- Family 0, keyed by bits 3:0; bits 11:4 are ignored (R94, R96). -/
def decodeFamily0 (w : Word) : Instr :=
  match fieldN w with
  | 0x0#4 => .cls
  | 0xE#4 => .ret
  | _ => .nopUnmapped w

/-- Family 8, keyed by bits 3:0; SHR and SHL ignore y (R94, R97). -/
def decodeFamily8 (w : Word) : Instr :=
  match fieldN w with
  | 0x0#4 => .ldVxVy (fieldX w) (fieldY w)
  | 0x1#4 => .orVxVy (fieldX w) (fieldY w)
  | 0x2#4 => .andVxVy (fieldX w) (fieldY w)
  | 0x3#4 => .xorVxVy (fieldX w) (fieldY w)
  | 0x4#4 => .addVxVy (fieldX w) (fieldY w)
  | 0x5#4 => .subVxVy (fieldX w) (fieldY w)
  | 0x6#4 => .shrVx (fieldX w)
  | 0x7#4 => .subnVxVy (fieldX w) (fieldY w)
  | 0xE#4 => .shlVx (fieldX w)
  | _ => .nopUnmapped w

/-- Family E, keyed by bits 3:0; bits 7:4 are ignored (R94, R96). -/
def decodeFamilyE (w : Word) : Instr :=
  match fieldN w with
  | 0x1#4 => .sknpVx (fieldX w)
  | 0xE#4 => .skpVx (fieldX w)
  | _ => .nopUnmapped w

/-- Family F, keyed by bits 7:0 (R95). -/
def decodeFamilyF (w : Word) : Instr :=
  match fieldKK w with
  | 0x07#8 => .ldVxDt (fieldX w)
  | 0x0A#8 => .ldVxK (fieldX w)
  | 0x15#8 => .ldDtVx (fieldX w)
  | 0x18#8 => .ldStVx (fieldX w)
  | 0x1E#8 => .addIVx (fieldX w)
  | 0x29#8 => .ldFVx (fieldX w)
  | 0x33#8 => .ldBVx (fieldX w)
  | 0x55#8 => .ldMemVx (fieldX w)
  | 0x65#8 => .ldVxMem (fieldX w)
  | _ => .nopUnmapped w

/-- The top-level table, keyed by bits 15:12 (R93). Every word decodes: what no row matches is the no-op (R98). -/
def decodeWord (w : Word) : Instr :=
  match fieldFamily w with
  | 0x0#4 => decodeFamily0 w
  | 0x1#4 => .jp (fieldNNN w)
  | 0x2#4 => .call (fieldNNN w)
  | 0x3#4 => .seVxKk (fieldX w) (fieldKK w)
  | 0x4#4 => .sneVxKk (fieldX w) (fieldKK w)
  | 0x5#4 => .seVxVy (fieldX w) (fieldY w)
  | 0x6#4 => .ldVxKk (fieldX w) (fieldKK w)
  | 0x7#4 => .addVxKk (fieldX w) (fieldKK w)
  | 0x8#4 => decodeFamily8 w
  | 0x9#4 => .sneVxVy (fieldX w) (fieldY w)
  | 0xA#4 => .ldIAddr (fieldNNN w)
  | 0xB#4 => .jpV0 (fieldNNN w)
  | 0xC#4 => .rndVxKk (fieldX w) (fieldKK w)
  | 0xD#4 => .drwVxVyN (fieldX w) (fieldY w) (fieldN w)
  | 0xE#4 => decodeFamilyE w
  | _ => decodeFamilyF w

/-- Why bytes are not an instruction. -/
inductive DecodeError where
  /-- Fewer than the two bytes every instruction has (R90). -/
  | truncated
  deriving DecidableEq, Repr

/-- The word two bytes spell: the byte at the lower address holds bits 15:8 (R64). -/
def wordOfBytes (hi lo : Byte) : Word := hi ++ lo

/-- Bits 15:8 of a word, the byte stored first (R64). -/
def highByte (w : Word) : Byte := w.extractLsb' 8 8

/-- Bits 7:0 of a word, the byte stored second (R64). -/
def lowByte (w : Word) : Byte := w.extractLsb' 0 8

/-- The decoder on bytes: the first instruction and the rest. The only refusal is of fewer than two bytes (R90, R98). -/
def decode : List Byte → Except DecodeError (Instr × List Byte)
  | hi :: lo :: rest => .ok (decodeWord (wordOfBytes hi lo), rest)
  | [_] => .error .truncated
  | [] => .error .truncated

/-! ## The encoder -/

/-- The canonical word of an instruction (R97): don't-care bits as R100's last column has them. -/
def encode : Instr → Word
  | .cls => 0x00E0#16
  | .ret => 0x00EE#16
  | .jp nnn => packA 0x1#4 nnn
  | .call nnn => packA 0x2#4 nnn
  | .seVxKk x kk => packXK 0x3#4 x kk
  | .sneVxKk x kk => packXK 0x4#4 x kk
  | .seVxVy x y => packXYN 0x5#4 x y 0x0#4
  | .ldVxKk x kk => packXK 0x6#4 x kk
  | .addVxKk x kk => packXK 0x7#4 x kk
  | .ldVxVy x y => packXYN 0x8#4 x y 0x0#4
  | .orVxVy x y => packXYN 0x8#4 x y 0x1#4
  | .andVxVy x y => packXYN 0x8#4 x y 0x2#4
  | .xorVxVy x y => packXYN 0x8#4 x y 0x3#4
  | .addVxVy x y => packXYN 0x8#4 x y 0x4#4
  | .subVxVy x y => packXYN 0x8#4 x y 0x5#4
  | .shrVx x => packXYN 0x8#4 x 0x0#4 0x6#4
  | .subnVxVy x y => packXYN 0x8#4 x y 0x7#4
  | .shlVx x => packXYN 0x8#4 x 0x0#4 0xE#4
  | .sneVxVy x y => packXYN 0x9#4 x y 0x0#4
  | .ldIAddr nnn => packA 0xA#4 nnn
  | .jpV0 nnn => packA 0xB#4 nnn
  | .rndVxKk x kk => packXK 0xC#4 x kk
  | .drwVxVyN x y n => packXYN 0xD#4 x y n
  | .skpVx x => packXYN 0xE#4 x 0x9#4 0xE#4
  | .sknpVx x => packXYN 0xE#4 x 0xA#4 0x1#4
  | .ldVxDt x => packXK 0xF#4 x 0x07#8
  | .ldVxK x => packXK 0xF#4 x 0x0A#8
  | .ldDtVx x => packXK 0xF#4 x 0x15#8
  | .ldStVx x => packXK 0xF#4 x 0x18#8
  | .addIVx x => packXK 0xF#4 x 0x1E#8
  | .ldFVx x => packXK 0xF#4 x 0x29#8
  | .ldBVx x => packXK 0xF#4 x 0x33#8
  | .ldMemVx x => packXK 0xF#4 x 0x55#8
  | .ldVxMem x => packXK 0xF#4 x 0x65#8
  | .nopUnmapped w => w

/-- The two bytes of an instruction as memory holds them (R64, R90). -/
def encodeBytes (i : Instr) : List Byte := [highByte (encode i), lowByte (encode i)]

/-! ## The opcode table of R97, row by row, for checking the decoder against it -/

/-- One row: the decode mask and match of R97, and the instruction its fields spell. -/
structure OpcodeRow where
  mnemonic : String
  mask : Word
  value : Word
  build : Word → Instr

/-- A word matches a row when the bits of the mask have the row's value (R96, R97). -/
def OpcodeRow.matchesWord (r : OpcodeRow) (w : Word) : Bool := w &&& r.mask == r.value

/-- R97, rows 1 to 23. -/
def opcodeTableLow : List OpcodeRow :=
  [ ⟨"CLS", 0xF00F#16, 0x0000#16, fun _ => .cls⟩,
    ⟨"RET", 0xF00F#16, 0x000E#16, fun _ => .ret⟩,
    ⟨"JP_addr", 0xF000#16, 0x1000#16, fun w => .jp (fieldNNN w)⟩,
    ⟨"CALL_addr", 0xF000#16, 0x2000#16, fun w => .call (fieldNNN w)⟩,
    ⟨"SE_Vx__kk", 0xF000#16, 0x3000#16, fun w => .seVxKk (fieldX w) (fieldKK w)⟩,
    ⟨"SNE_Vx__kk", 0xF000#16, 0x4000#16, fun w => .sneVxKk (fieldX w) (fieldKK w)⟩,
    ⟨"SE_Vx__Vy", 0xF000#16, 0x5000#16, fun w => .seVxVy (fieldX w) (fieldY w)⟩,
    ⟨"LD_Vx__kk", 0xF000#16, 0x6000#16, fun w => .ldVxKk (fieldX w) (fieldKK w)⟩,
    ⟨"ADD_Vx__kk", 0xF000#16, 0x7000#16, fun w => .addVxKk (fieldX w) (fieldKK w)⟩,
    ⟨"LD_Vx__Vy", 0xF00F#16, 0x8000#16, fun w => .ldVxVy (fieldX w) (fieldY w)⟩,
    ⟨"OR_Vx__Vy", 0xF00F#16, 0x8001#16, fun w => .orVxVy (fieldX w) (fieldY w)⟩,
    ⟨"AND_Vx__Vy", 0xF00F#16, 0x8002#16, fun w => .andVxVy (fieldX w) (fieldY w)⟩,
    ⟨"XOR_Vx__Vy", 0xF00F#16, 0x8003#16, fun w => .xorVxVy (fieldX w) (fieldY w)⟩,
    ⟨"ADD_Vx__Vy", 0xF00F#16, 0x8004#16, fun w => .addVxVy (fieldX w) (fieldY w)⟩,
    ⟨"SUB_Vx__Vy", 0xF00F#16, 0x8005#16, fun w => .subVxVy (fieldX w) (fieldY w)⟩,
    ⟨"SHR_Vx", 0xF00F#16, 0x8006#16, fun w => .shrVx (fieldX w)⟩,
    ⟨"SUBN_Vx__Vy", 0xF00F#16, 0x8007#16, fun w => .subnVxVy (fieldX w) (fieldY w)⟩,
    ⟨"SHL_Vx", 0xF00F#16, 0x800E#16, fun w => .shlVx (fieldX w)⟩,
    ⟨"SNE_Vx__Vy", 0xF000#16, 0x9000#16, fun w => .sneVxVy (fieldX w) (fieldY w)⟩,
    ⟨"LD_I__addr", 0xF000#16, 0xA000#16, fun w => .ldIAddr (fieldNNN w)⟩,
    ⟨"JP_V0__addr", 0xF000#16, 0xB000#16, fun w => .jpV0 (fieldNNN w)⟩,
    ⟨"RND_Vx__kk", 0xF000#16, 0xC000#16, fun w => .rndVxKk (fieldX w) (fieldKK w)⟩,
    ⟨"DRW_Vx__Vy__n", 0xF000#16, 0xD000#16, fun w => .drwVxVyN (fieldX w) (fieldY w) (fieldN w)⟩ ]

/-- R97, rows 24 to 34. -/
def opcodeTableHigh : List OpcodeRow :=
  [ ⟨"SKP_Vx", 0xF00F#16, 0xE00E#16, fun w => .skpVx (fieldX w)⟩,
    ⟨"SKNP_Vx", 0xF00F#16, 0xE001#16, fun w => .sknpVx (fieldX w)⟩,
    ⟨"LD_Vx__DT", 0xF0FF#16, 0xF007#16, fun w => .ldVxDt (fieldX w)⟩,
    ⟨"LD_Vx__K", 0xF0FF#16, 0xF00A#16, fun w => .ldVxK (fieldX w)⟩,
    ⟨"LD_DT__Vx", 0xF0FF#16, 0xF015#16, fun w => .ldDtVx (fieldX w)⟩,
    ⟨"LD_ST__Vx", 0xF0FF#16, 0xF018#16, fun w => .ldStVx (fieldX w)⟩,
    ⟨"ADD_I__Vx", 0xF0FF#16, 0xF01E#16, fun w => .addIVx (fieldX w)⟩,
    ⟨"LD_F__Vx", 0xF0FF#16, 0xF029#16, fun w => .ldFVx (fieldX w)⟩,
    ⟨"LD_B__Vx", 0xF0FF#16, 0xF033#16, fun w => .ldBVx (fieldX w)⟩,
    ⟨"LD__I___Vx", 0xF0FF#16, 0xF055#16, fun w => .ldMemVx (fieldX w)⟩,
    ⟨"LD_Vx___I", 0xF0FF#16, 0xF065#16, fun w => .ldVxMem (fieldX w)⟩ ]

/-- The 34 rows of R97; the default row (R98) is the decoder's last case. -/
def opcodeTable : List OpcodeRow := opcodeTableLow ++ opcodeTableHigh

/-! ## The host's question -/

/-- The bytes of an instruction given as the low `nbits` bits of a number, bits above them zero, first byte first. -/
def tableWordBytes (nbits w : Nat) : List Byte :=
  let word : Word := BitVec.ofNat 16 (w % 2 ^ nbits)
  [highByte word, lowByte word]

/-- The instruction the decoder reads from such bytes. -/
def decodeTableWord (nbits w : Nat) : Option Instr :=
  match decode (tableWordBytes nbits w) with
  | .ok (i, _) => some i
  | .error _ => none

end Sys2Proof
end

