-- ==== Sys2Proof/Config.lean ====
section
/-! DEFINITION. The parameters of spec/00_scope.md R5 that are numbers, and the one free value of the engine. -/

namespace Sys2Proof.Config

/-- MEM_SIZE: addresses 0x000 to 0xFFF (R5, R60). -/
abbrev memSize : Nat := 4096

/-- LOAD_BASE: where a program is loaded, and the reset pc (R5, R272). -/
abbrev loadBase : Nat := 0x200

/-- LOAD_MAX: the largest program image, in bytes (R5, R272). -/
abbrev loadMax : Nat := 3584

/-- FONT_BASE, the document's fontBaseAddress (R5, R172). -/
abbrev fontBase : Nat := 0x050

/-- STACK_DEPTH: entries of the call stack (R5, R27). -/
abbrev stackDepth : Nat := 16

/-- The random-byte source (R41, R217): the byte of a draw, by RNG_SEED and by how many draws came before it. It has no
body, so nothing can be proved of any value of it: a claim about a draw holds for every byte. DESIGN CHOICE,
notes/assumptions/6.md. -/
opaque randomByte (seed drawn : Nat) : Byte

end Sys2Proof.Config
end

