-- ==== Sys2Proof/Machine/Font.lean ====
section
/-! DEFINITION. FONT (spec/00_scope.md R5; spec/20_memory.md R63): the default of the machine's font parameter. -/

namespace Sys2Proof.Machine

/-- The 80 bytes of FONT: 16 glyphs of 5 bytes (R63). -/
abbrev FontTable := Vector Byte 80

/-- The spec's default table (R63), glyph by glyph. It is the spec's own general knowledge:
PRESUMED, notes/assumptions/2.md (unsafe). -/
def fontTable : List Byte :=
  [ 0xF0#8, 0x90#8, 0x90#8, 0x90#8, 0xF0#8,  0x20#8, 0x60#8, 0x20#8, 0x20#8, 0x70#8,
    0xF0#8, 0x10#8, 0xF0#8, 0x80#8, 0xF0#8,  0xF0#8, 0x10#8, 0xF0#8, 0x10#8, 0xF0#8,
    0x90#8, 0x90#8, 0xF0#8, 0x10#8, 0x10#8,  0xF0#8, 0x80#8, 0xF0#8, 0x10#8, 0xF0#8,
    0xF0#8, 0x80#8, 0xF0#8, 0x90#8, 0xF0#8,  0xF0#8, 0x10#8, 0x20#8, 0x40#8, 0x40#8 ] ++
  [ 0xF0#8, 0x90#8, 0xF0#8, 0x90#8, 0xF0#8,  0xF0#8, 0x90#8, 0xF0#8, 0x10#8, 0xF0#8,
    0xF0#8, 0x90#8, 0xF0#8, 0x90#8, 0x90#8,  0xE0#8, 0x90#8, 0xE0#8, 0x90#8, 0xE0#8,
    0xF0#8, 0x80#8, 0x80#8, 0x80#8, 0xF0#8,  0xE0#8, 0x90#8, 0x90#8, 0x90#8, 0xE0#8,
    0xF0#8, 0x80#8, 0xF0#8, 0x80#8, 0xF0#8,  0xF0#8, 0x80#8, 0xF0#8, 0x80#8, 0x80#8 ]

/-- FONT where nothing else is given (R5, R63). -/
def defaultFont : FontTable := ⟨fontTable.toArray, rfl⟩

end Sys2Proof.Machine
end

