-- ==== Sys2Proof/Machine/State.lean ====
section
/-! DEFINITION. The state of the engine (spec/10_state.md), the host's events (spec/00_scope.md R9), the reasons a
step can stop, and the state after Reset (R45). Plain data throughout. -/

namespace Sys2Proof.Machine

/-- What a fault record can name (R231). The register holds the 3-bit code of the name. -/
inductive Cause where
  /-- Code 0: no fault since Reset. -/
  | none
  /-- Code 1: CALL with 16 entries live (R232). -/
  | stackOverflow
  /-- Code 2: RET with none live (R232). -/
  | stackUnderflow
  /-- Code 3: a fetch with pc above 0xFFE (R233). -/
  | memFetch
  /-- Code 4: a data access that passes 0xFFF (R233). -/
  | memData
  deriving DecidableEq, Repr

/-- The register `fault` (R42). -/
structure FaultRecord where
  halted : Bool
  cause : Cause
  fpc : Word
  fop : Word
  faddr : BitVec 17
  deriving DecidableEq, Repr

/-- The events of R9. A key index is 4 bits (R242), so no other can be named. -/
inductive Event where
  /-- Reset, the document's construct(), with the RNG_SEED it seeds the random source with (R45, R270). -/
  | reset (seed : Nat)
  /-- Load(bytes) (R272). -/
  | load (bytes : List Byte)
  /-- Step, the document's stepCycle() (R91). -/
  | step
  /-- Tick (R240). -/
  | tick
  /-- SetKey(k, p) (R242). -/
  | setKey (k : Nibble) (pressed : Bool)
  /-- ReadFramebuffer (R243). -/
  | readFramebuffer
  deriving DecidableEq, Repr

/-- Why a step of the model stops with a fault of the model. There is no such reason: the spec gives every fault of
this hardware its whole effect (R231 to R235), so a fault is a next state. Notes/assumptions/3.md. -/
inductive Fault where
  deriving DecidableEq, Repr

/-- Why a step has no meaning. -/
inductive Refusal where
  /-- Raised by an arm of exec that has no meaning yet (none in this model). Safe. -/
  | notModelled (mnemonic : String)
  /-- Raised by the event Load after the first Step, or after another Load since the Reset: the spec gives it no meaning
  (R274; spec/93_implementation_defined.md U17). Safe. -/
  | loadOutOfPlace
  deriving DecidableEq, Repr

/-- Memory: the bytes that differ from what memory holds after Reset, by address. -/
abbrev Memory := List Host.Cell

/-- The framebuffer: pixel (px, py) is entry py*64 + px, true = on (R31). -/
abbrev Video := Vector Bool 2048

/-- The state of the random-byte source (R41): the RNG_SEED it was seeded with and the number of bytes drawn since.
Notes/assumptions/6.md. -/
structure RngState where
  seed : Nat
  drawn : Nat
  deriving DecidableEq, Repr

/-- The source just seeded (R45). -/
def RngState.seeded (seed : Nat) : RngState := { seed := seed, drawn := 0 }

/-- The Interpreter State of spec/10_state.md, the machine's parameter FONT, and two fields of the model's own:
`schedule` and `loadOpen`. -/
structure State where
  /-- General registers V0 to VF (R20). -/
  V : Vector Byte 16
  /-- Index register (R26). -/
  I : Word
  /-- Program counter (R23). -/
  pc : Word
  /-- Call stack (R27). -/
  stack : Vector Word 16
  /-- Stack pointer, the next free slot, 0 to 16 (R28). Notes/assumptions/11.md. -/
  sp : Fin 17
  /-- Delay timer (R29). -/
  DT : Byte
  /-- Sound timer (R29). -/
  ST : Byte
  /-- Key state, true = pressed (R30). -/
  key : Vector Bool 16
  /-- Framebuffer (R31). -/
  video : Video
  /-- Memory (R32, R60). -/
  memory : Memory
  /-- The latch of the word fetched last (R40). -/
  opcode : Word
  /-- The state of the random-byte source (R41). Notes/assumptions/6.md. -/
  rng : RngState
  /-- The fault record (R42). -/
  fault : FaultRecord
  /-- FONT, the parameter of R5: fixed for the machine, what Reset writes at 0x050. No instruction and no event changes
  it. Notes/assumptions/2.md. -/
  font : FontTable
  /-- MODEL'S OWN: the host's events still to come, first one first; when it is empty the host issues Steps.
  DESIGN CHOICE, notes/assumptions/8.md. -/
  schedule : List Event
  /-- MODEL'S OWN: whether a Load is still admitted (R274). DESIGN CHOICE, notes/assumptions/9.md. -/
  loadOpen : Bool
  deriving DecidableEq, Repr

/-- The fault record with every field 0 (R42, R45). -/
def FaultRecord.clear : FaultRecord :=
  { halted := false, cause := .none, fpc := 0#16, fop := 0#16, faddr := 0#17 }

/-- The state after Reset (R45, R270), with the default FONT. Memory lists nothing: an unlisted address reads as Reset
leaves it. RNG_SEED is 0 here, a DESIGN CHOICE (notes/assumptions/6.md), and so are the model's own two fields. Another
FONT and another RNG_SEED: `State.resetWith` of Machine/Ops.lean. -/
def State.reset : State :=
  { V := Vector.replicate 16 0#8
    I := 0#16
    pc := 0x0200#16
    stack := Vector.replicate 16 0#16
    sp := 0
    DT := 0#8
    ST := 0#8
    key := Vector.replicate 16 false
    video := Vector.replicate 2048 false
    memory := []
    opcode := 0#16
    rng := RngState.seeded 0
    fault := FaultRecord.clear
    font := defaultFont
    schedule := []
    loadOpen := true }

end Sys2Proof.Machine
end

