-- ==== Sys2Proof/Machine/Ops.lean ====
section
/-! DEFINITION. The named operations over registers and memory, taking a fault, and leaving it by Reset
(spec/10_state.md, 20_memory.md, 60_exceptions.md). -/

namespace Sys2Proof.Machine

/-! ## Registers (R20, R22) -/

/-- V[x]: no register is hard-wired (R20). -/
def State.getV (s : State) (x : Nibble) : Byte := s.V[x.toNat]'(by have := x.isLt; omega)

/-- V[x] <- v (R20). -/
def State.setV (s : State) (x : Nibble) (v : Byte) : State :=
  { s with V := s.V.set x.toNat v (by have := x.isLt; omega) }

/-- V[x] <- result, then VF <- flag, last: with x = 0xF the flag stays (R22, R143). -/
def State.setResultFlag (s : State) (x : Nibble) (result flag : Byte) : State :=
  (s.setV x result).setV 0xF#4 flag

/-- V[k], V[k+1], ... <- the bytes, as far as there are registers (R175). -/
def writeRegs (V : Vector Byte 16) (k : Nat) : List Byte → Vector Byte 16
  | [] => V
  | b :: bs => writeRegs (V.setIfInBounds k b) (k + 1) bs

/-- Key k is pressed (R30). -/
def State.keyDown (s : State) (k : Nibble) : Bool := s.key[k.toNat]'(by have := k.isLt; omega)

/-! ## Memory (R60 to R70) -/

/-- What an address that memory does not list reads as: the byte memory holds after a Reset with the default FONT, that
table at 0x050 to 0x09F and 0x00 elsewhere (R45, R61). Another FONT is listed, byte by byte where it differs. No access reaches an address above 0xFFF (R66); notes/assumptions/13.md. -/
def unlistedByte (a : Nat) : Byte :=
  if 0x050 ≤ a ∧ a ≤ 0x09F then fontTable.getD (a - 0x050) 0#8 else 0#8

/-- MemRead(a, 1) (R7, R68). -/
def Memory.read : Memory → Nat → Byte
  | [], a => unlistedByte a
  | (b, u) :: rest, a => if a = b then u else Memory.read rest a

/-- A byte put into a memory list in address order; the byte an unlisted address reads as is not listed. -/
def Memory.put : Memory → Nat → Byte → Memory
  | [], a, v => if v = unlistedByte a then [] else [(a, v)]
  | (b, u) :: rest, a, v =>
    if a < b then (if v = unlistedByte a then (b, u) :: rest else (a, v) :: (b, u) :: rest)
    else if a = b then (if v = unlistedByte a then rest else (a, v) :: rest)
    else (b, u) :: Memory.put rest a v

/-- MemWrite(a, 1, v) (R7); there is no byte above 0xFFF to write (R66). -/
def Memory.write (m : Memory) (a : Nat) (v : Byte) : Memory :=
  if a < Config.memSize then m.put a v else m

/-- The canonical form from address `lo` on: addresses strictly rising, below 0x1000, no entry equal to what its
address reads as unlisted. -/
def Memory.wfFrom (lo : Nat) : Memory → Bool
  | [] => true
  | (b, u) :: rest =>
    decide (lo ≤ b) && decide (b < Config.memSize) && decide (u ≠ unlistedByte b) && Memory.wfFrom (b + 1) rest

/-- The canonical form: equal memories are equal lists. -/
def Memory.wf (m : Memory) : Bool := Memory.wfFrom 0 m

/-- The n bytes at a, a+1, ..., ascending (R67, R176). -/
def Memory.readBytes (m : Memory) (a : Nat) : Nat → List Byte
  | 0 => []
  | n + 1 => m.read a :: m.readBytes (a + 1) n

/-- The bytes stored at a, a+1, ..., ascending (R67, R176). -/
def Memory.writeBytes (m : Memory) (a : Nat) : List Byte → Memory
  | [] => m
  | b :: bs => (m.write a b).writeBytes (a + 1) bs

/-- MemRead(a, 2), instruction fetch only: big-endian (R64). -/
def Memory.fetchWord (m : Memory) (a : Nat) : Word := wordOfBytes (m.read a) (m.read (a + 1))

/-- The state after Reset of the machine whose FONT is `font`, with the random source seeded by `seed`: the arguments
FONT and RNG_SEED of R5, R45 and R270. -/
def State.resetWith (font : FontTable) (seed : Nat) : State :=
  { State.reset with
    memory := State.reset.memory.writeBytes Config.fontBase font.toList
    rng := RngState.seeded seed
    font := font }

/-! ## The random-byte source (R41, R217) -/

/-- RandomByte(): the byte of this draw, a free value. -/
def State.randomByte (s : State) : Byte := Config.randomByte s.rng.seed s.rng.drawn

/-- The draw advances the source. -/
def State.advanceRng (s : State) : State := { s with rng := { s.rng with drawn := s.rng.drawn + 1 } }

/-! ## Taking a fault, and the way back (R231 to R239) -/

/-- The code `fault.cause` holds (R42, R231); 5 to 7 are never produced. -/
def Cause.code : Cause → BitVec 3
  | .none => 0#3
  | .stackOverflow => 1#3
  | .stackUnderflow => 2#3
  | .memFetch => 3#3
  | .memData => 4#3

/-- Taking a fault: the record names the cause, the address and the word of the instruction and the address that
failed; pc is left at the instruction; nothing else changes and control goes nowhere (R231, R234, R238). -/
def takeFault (cause : Cause) (fpc fop : Word) (faddr : Nat) (s : State) : State :=
  { s with
    pc := fpc
    fault := { halted := true, cause := cause, fpc := fpc, fop := fop, faddr := BitVec.ofNat 17 faddr } }

/-- A fault raised by an instruction: in a handler pc is the address of the instruction plus 2 (R7, R91), so the
instruction stands at pc - 2, and its word is in the latch (R40, R231). -/
def raise (cause : Cause) (faddr : Nat) (s : State) : Host.Outcome State Fault Refusal :=
  .next (takeFault cause (s.pc - 2#16) s.opcode faddr s)

/-- The fault of a fetch: no word was fetched, so `fop` is 0, and the address is pc + 1 (R231). -/
def raiseFetch (s : State) : State := takeFault .memFetch s.pc 0#16 (s.pc.toNat + 1) s

/-- An access whose last byte is at `last` goes on, or raises MEM_DATA before anything changes (R66, R233). -/
def checkRange (last : Nat) (s : State) (k : Host.Outcome State Fault Refusal) : Host.Outcome State Fault Refusal :=
  if 0xFFF < last then raise .memData last s else k

/-- There is no return from a fault (R239): the one way out of the halted state is the Reset event, which gives every
field its reset value: FONT is the machine's own, RNG_SEED the event's argument (R270, R271; notes/assumptions/7.md).
The host's schedule is not the engine's to reset: DESIGN CHOICE, notes/assumptions/8.md. -/
def resetEvent (seed : Nat) (s : State) : State := { State.resetWith s.font seed with schedule := s.schedule }

/-! ## The program counter (R23, R129) -/

/-- "Skip next instruction": 2 more on the pre-advanced pc, if the condition holds (R129). -/
def skipIf (c : Bool) (s : State) : State := if c then { s with pc := s.pc + 2#16 } else s

end Sys2Proof.Machine
end

