-- ==== Sys2Proof/Machine/Flags.lean ====
section
/-! DEFINITION. What VF is set to (spec/10_state.md R21; spec/41_alu.md R142). -/

namespace Sys2Proof.Machine

/-- A flag as the byte VF holds: 1 or 0 (R21). -/
def flagByte (b : Bool) : Byte := if b then 1#8 else 0#8

/-- Carry: the 9-bit sum exceeds 255 (R148). -/
def carryFlag (a b : Byte) : Bool := decide (255 < a.toNat + b.toNat)

/-- No borrow of a - b: a >= b (R149, R151). -/
def noBorrowFlag (a b : Byte) : Bool := decide (b.toNat ≤ a.toNat)

/-- The bit a shift right moves out: bit 0 (R150). -/
def shiftedOutRight (a : Byte) : Bool := a.getLsbD 0

/-- The bit a shift left moves out: bit 7 (R152). -/
def shiftedOutLeft (a : Byte) : Bool := a.getLsbD 7

end Sys2Proof.Machine
end

