-- ==== Sys2Proof/Machine/Operands.lean ====
section
/-! DEFINITION. The operand forms of the instructions: immediates (R92), the addresses through I (R176), jump targets
(R123, R128), glyph addresses (R172), decimal digits (R173), sprite coordinates and pixels (R191 to R193), keys
(R210, R212). -/

namespace Sys2Proof.Machine

/-- An address immediate, zero-extended to 16 bits (R92). -/
def zextAddr (nnn : Addr) : Word := nnn.setWidth 16

/-- A byte, zero-extended to 16 bits (R123, R171). -/
def zextByte (b : Byte) : Word := b.setWidth 16

/-- The target of JP V0, addr: nnn + V0 mod 2^16, not masked to 12 bits (R123). -/
def jumpV0Target (nnn : Addr) (s : State) : Word := zextAddr nnn + zextByte (s.getV 0x0#4)

/-- The effective address of byte k of an access, I + k, computed without wrap (R66, R176). -/
def effectiveAddr (s : State) (k : Nat) : Nat := s.I.toNat + k

/-- The address LD F puts into I: 0x050 + 5 * V[x], the whole register (R172; spec/90_conflicts.md C3). -/
def glyphAddr (v : Byte) : Word := BitVec.ofNat 16 Config.fontBase + 5#16 * zextByte v

/-- Hundreds, tens and units (R173). -/
def bcdDigits (v : Byte) : List Byte :=
  [BitVec.ofNat 8 (v.toNat / 100), BitVec.ofNat 8 (v.toNat / 10 % 10), BitVec.ofNat 8 (v.toNat % 10)]

/-- V[0], ..., V[x] (R174). -/
def registersUpTo (s : State) (x : Nibble) : List Byte :=
  (List.range (x.toNat + 1)).map fun k => s.getV (BitVec.ofNat 4 k)

/-- The key a register selects: its low nibble (R210). -/
def keyIndex (v : Byte) : Nibble := v.extractLsb' 0 4

/-- The smallest pressed key, if any is (R212). -/
def lowestPressedKey (s : State) : Option Nibble :=
  ((List.range 16).map (BitVec.ofNat 4)).find? fun k => s.keyDown k

/-- The start column of a sprite: V[x] mod 64 (R192). -/
def spriteColumn (s : State) (x : Nibble) : Nat := (s.getV x).toNat % 64

/-- The start row of a sprite: V[y] mod 32 (R192). -/
def spriteRow (s : State) (y : Nibble) : Nat := (s.getV y).toNat % 32

/-- The framebuffer and whether a pixel that was on has been turned off so far. -/
abbrev Canvas := Video × Bool

/-- One set sprite bit at (px, py): clipped outside 64 x 32, else collision test and toggle (R192 lines 9 to 12). -/
def plotPixel (px py : Nat) (c : Canvas) : Canvas :=
  if h : px ≤ 63 ∧ py ≤ 31 then
    (c.1.set (py * 64 + px) (!c.1[py * 64 + px]), c.2 || c.1[py * 64 + px])
  else c

/-- One sprite row: column col is bit 7 - col of the byte, most significant first (R191, R192 lines 6 and 7). -/
def drawRow (b : Byte) (xs py : Nat) (c : Canvas) : Canvas :=
  (List.range 8).foldl (fun c col => if b.getLsbD (7 - col) then plotPixel (xs + col) py c else c) c

/-- The sprite rows from row py down (R192 line 4). -/
def drawRows (xs : Nat) : Nat → List Byte → Canvas → Canvas
  | _, [], c => c
  | py, b :: bs, c => drawRows xs (py + 1) bs (drawRow b xs py c)

end Sys2Proof.Machine
end

