-- ==== Sys2Proof/Machine/Alu.lean ====
section
/-! DEFINITION. Register loads and the ALU (spec/41_alu.md): unsigned 8-bit values, sums and differences mod 256,
VF written last (R142, R143). -/

namespace Sys2Proof.Machine

/-- LD Vx, kk (R140). -/
def execLdVxKk (x : Nibble) (kk : Byte) (s : State) : Host.Outcome State Fault Refusal :=
  .next (s.setV x kk)

/-- ADD Vx, kk (R141): no flag. -/
def execAddVxKk (x : Nibble) (kk : Byte) (s : State) : Host.Outcome State Fault Refusal :=
  .next (s.setV x (s.getV x + kk))

/-- LD Vx, Vy (R144). -/
def execLdVxVy (x y : Nibble) (s : State) : Host.Outcome State Fault Refusal :=
  .next (s.setV x (s.getV y))

/-- OR Vx, Vy (R145): no flag. -/
def execOrVxVy (x y : Nibble) (s : State) : Host.Outcome State Fault Refusal :=
  .next (s.setV x (s.getV x ||| s.getV y))

/-- AND Vx, Vy (R146): no flag. -/
def execAndVxVy (x y : Nibble) (s : State) : Host.Outcome State Fault Refusal :=
  .next (s.setV x (s.getV x &&& s.getV y))

/-- XOR Vx, Vy (R147): no flag. -/
def execXorVxVy (x y : Nibble) (s : State) : Host.Outcome State Fault Refusal :=
  .next (s.setV x (s.getV x ^^^ s.getV y))

/-- ADD Vx, Vy (R148): VF = carry. -/
def execAddVxVy (x y : Nibble) (s : State) : Host.Outcome State Fault Refusal :=
  .next (s.setResultFlag x (s.getV x + s.getV y) (flagByte (carryFlag (s.getV x) (s.getV y))))

/-- SUB Vx, Vy (R149): VF = no borrow. -/
def execSubVxVy (x y : Nibble) (s : State) : Host.Outcome State Fault Refusal :=
  .next (s.setResultFlag x (s.getV x - s.getV y) (flagByte (noBorrowFlag (s.getV x) (s.getV y))))

/-- SHR Vx (R150): V[y] is neither read nor written; VF = the bit shifted out. -/
def execShrVx (x : Nibble) (s : State) : Host.Outcome State Fault Refusal :=
  .next (s.setResultFlag x (s.getV x >>> 1) (flagByte (shiftedOutRight (s.getV x))))

/-- SUBN Vx, Vy (R151): VF = no borrow of V[y] - V[x]. -/
def execSubnVxVy (x y : Nibble) (s : State) : Host.Outcome State Fault Refusal :=
  .next (s.setResultFlag x (s.getV y - s.getV x) (flagByte (noBorrowFlag (s.getV y) (s.getV x))))

/-- SHL Vx (R152): V[y] is neither read nor written; VF = the bit shifted out. -/
def execShlVx (x : Nibble) (s : State) : Host.Outcome State Fault Refusal :=
  .next (s.setResultFlag x (s.getV x <<< 1) (flagByte (shiftedOutLeft (s.getV x))))

end Sys2Proof.Machine
end

