-- ==== Sys2Proof/Machine/Control.lean ====
section
/-! DEFINITION. Control transfer (spec/40_control_flow.md) and the no-op of unmapped words (spec/30_encoding.md R98).
In every meaning `pc` is already the address of the instruction plus 2 (R91). -/

namespace Sys2Proof.Machine

/-- RET (R120): underflow at sp = 0, else sp - 1 and pc <- stack[sp]; the entry is not cleared. -/
def execRet (s : State) : Host.Outcome State Fault Refusal :=
  if h : s.sp.val = 0 then raise .stackUnderflow 0 s
  else
    let top : Fin 16 := ⟨s.sp.val - 1, by have := s.sp.isLt; omega⟩
    .next { s with sp := top.castSucc, pc := s.stack[top] }

/-- CALL addr (R122): overflow at sp = 16, else stack[sp] <- pc, sp + 1, pc <- nnn. -/
def execCall (nnn : Addr) (s : State) : Host.Outcome State Fault Refusal :=
  if h : s.sp.val = 16 then raise .stackOverflow 0 s
  else
    let free : Fin 16 := ⟨s.sp.val, by have := s.sp.isLt; omega⟩
    .next { s with stack := s.stack.set free.val s.pc, sp := free.succ, pc := zextAddr nnn }

/-- JP addr (R121). -/
def execJp (nnn : Addr) (s : State) : Host.Outcome State Fault Refusal :=
  .next { s with pc := zextAddr nnn }

/-- JP V0, addr (R123). -/
def execJpV0 (nnn : Addr) (s : State) : Host.Outcome State Fault Refusal :=
  .next { s with pc := jumpV0Target nnn s }

/-- SE Vx, kk (R124). -/
def execSeVxKk (x : Nibble) (kk : Byte) (s : State) : Host.Outcome State Fault Refusal :=
  .next (skipIf (s.getV x == kk) s)

/-- SNE Vx, kk (R125). -/
def execSneVxKk (x : Nibble) (kk : Byte) (s : State) : Host.Outcome State Fault Refusal :=
  .next (skipIf (s.getV x != kk) s)

/-- SE Vx, Vy (R126). -/
def execSeVxVy (x y : Nibble) (s : State) : Host.Outcome State Fault Refusal :=
  .next (skipIf (s.getV x == s.getV y) s)

/-- SNE Vx, Vy (R127). -/
def execSneVxVy (x y : Nibble) (s : State) : Host.Outcome State Fault Refusal :=
  .next (skipIf (s.getV x != s.getV y) s)

/-- NOP.unmapped (R98, R153): nothing beyond the fetch and the pre-advance. -/
def execNopUnmapped (s : State) : Host.Outcome State Fault Refusal := .next s

end Sys2Proof.Machine
end

