-- ==== Sys2Proof/Machine/Display.lean ====
section
/-! DEFINITION. The framebuffer write path (spec/43_display.md). -/

namespace Sys2Proof.Machine

/-- CLS (R190). -/
def execCls (s : State) : Host.Outcome State Fault Refusal :=
  .next { s with video := Vector.replicate 2048 false }

/-- The sprite of n rows at I, drawn at (V[x] mod 64, V[y] mod 32) (R192 lines 1 and 4 to 12). The coordinates are read
before VF is written. -/
def drawnCanvas (x y n : Nibble) (s : State) : Canvas :=
  drawRows (spriteColumn s x) (spriteRow s y) (s.memory.readBytes (effectiveAddr s 0) n.toNat) (s.video, false)

/-- DRW after the address check: the pixels, and VF = collision, always written (R192). -/
def drawSprite (x y n : Nibble) (s : State) : State :=
  let c := drawnCanvas x y n s
  { s with video := c.1 }.setV 0xF#4 (flagByte c.2)

/-- DRW Vx, Vy, n (R192 to R194): with n = 0 nothing is read and nothing faults; else all n rows count for the check. -/
def execDrwVxVyN (x y n : Nibble) (s : State) : Host.Outcome State Fault Refusal :=
  if n.toNat = 0 then .next (drawSprite x y n s)
  else checkRange (effectiveAddr s (n.toNat - 1)) s (.next (drawSprite x y n s))

end Sys2Proof.Machine
end

