-- ==== Sys2Proof/Machine/IndexMemory.lean ====
section
/-! DEFINITION. The index register and the indirect memory operations (spec/42_index_memory.md). The range check is on
the whole access, before anything is written; I is never changed by an access (R66, R176). -/

namespace Sys2Proof.Machine

/-- LD I, addr (R170). -/
def execLdIAddr (nnn : Addr) (s : State) : Host.Outcome State Fault Refusal :=
  .next { s with I := zextAddr nnn }

/-- ADD I, Vx (R171): mod 2^16, no flag, no fault. -/
def execAddIVx (x : Nibble) (s : State) : Host.Outcome State Fault Refusal :=
  .next { s with I := s.I + zextByte (s.getV x) }

/-- LD F, Vx (R172). -/
def execLdFVx (x : Nibble) (s : State) : Host.Outcome State Fault Refusal :=
  .next { s with I := glyphAddr (s.getV x) }

/-- LD B, Vx (R173): three decimal digits at I, I+1, I+2. -/
def execLdBVx (x : Nibble) (s : State) : Host.Outcome State Fault Refusal :=
  checkRange (effectiveAddr s 2) s
    (.next { s with memory := s.memory.writeBytes (effectiveAddr s 0) (bcdDigits (s.getV x)) })

/-- LD [I], Vx (R174): V0 to Vx stored at I .. I+x. -/
def execLdMemVx (x : Nibble) (s : State) : Host.Outcome State Fault Refusal :=
  checkRange (effectiveAddr s x.toNat) s
    (.next { s with memory := s.memory.writeBytes (effectiveAddr s 0) (registersUpTo s x) })

/-- LD Vx, [I] (R175): V0 to Vx loaded from I .. I+x. -/
def execLdVxMem (x : Nibble) (s : State) : Host.Outcome State Fault Refusal :=
  checkRange (effectiveAddr s x.toNat) s
    (.next { s with V := writeRegs s.V 0 (s.memory.readBytes (effectiveAddr s 0) (x.toNat + 1)) })

end Sys2Proof.Machine
end

