-- ==== Sys2Proof/Machine/KeysTimersRandom.lean ====
section
/-! DEFINITION. Keys, timers and random (spec/44_keypad_timers_random.md). -/

namespace Sys2Proof.Machine

/-- SKP Vx (R210). -/
def execSkpVx (x : Nibble) (s : State) : Host.Outcome State Fault Refusal :=
  .next (skipIf (s.keyDown (keyIndex (s.getV x))) s)

/-- SKNP Vx (R211). -/
def execSknpVx (x : Nibble) (s : State) : Host.Outcome State Fault Refusal :=
  .next (skipIf (!s.keyDown (keyIndex (s.getV x))) s)

/-- LD Vx, K (R212): the smallest pressed key, or the pre-advance undone. -/
def execLdVxK (x : Nibble) (s : State) : Host.Outcome State Fault Refusal :=
  match lowestPressedKey s with
  | some k => .next (s.setV x (k.setWidth 8))
  | none => .next { s with pc := s.pc - 2#16 }

/-- LD Vx, DT (R213). -/
def execLdVxDt (x : Nibble) (s : State) : Host.Outcome State Fault Refusal :=
  .next (s.setV x s.DT)

/-- LD DT, Vx (R214). -/
def execLdDtVx (x : Nibble) (s : State) : Host.Outcome State Fault Refusal :=
  .next { s with DT := s.getV x }

/-- LD ST, Vx (R215). -/
def execLdStVx (x : Nibble) (s : State) : Host.Outcome State Fault Refusal :=
  .next { s with ST := s.getV x }

/-- RND Vx, kk (R216): one draw, whatever kk. -/
def execRndVxKk (x : Nibble) (kk : Byte) (s : State) : Host.Outcome State Fault Refusal :=
  .next (s.advanceRng.setV x (s.randomByte &&& kk))

end Sys2Proof.Machine
end

