-- ==== Sys2Proof/Machine/Events.lean ====
section
/-! DEFINITION. What the host's events other than Step do (spec/00_scope.md R9; spec/60_exceptions.md R240, R242, R243;
spec/70_reset_and_hazards.md R270 to R274). Reset is `resetEvent` of Machine/Ops.lean. -/

namespace Sys2Proof.Machine

/-- A timer after one Tick: 0 stays 0 (R240). -/
def countDown (t : Byte) : Byte := if t = 0#8 then 0#8 else t - 1#8

/-- Tick (R240): halted or not (R235). -/
def tick (s : State) : State := { s with DT := countDown s.DT, ST := countDown s.ST }

/-- SetKey(k, p) (R242): halted or not (R235). -/
def setKey (k : Nibble) (pressed : Bool) (s : State) : State :=
  { s with key := s.key.set k.toNat pressed (by have := k.isLt; omega) }

/-- What Load reports to the host: an image above 3584 bytes is rejected (R272, R273). -/
def loadRejected (bytes : List Byte) : Bool := decide (Config.loadMax < bytes.length)

/-- Load(bytes) (R272, R273): copied to 0x200 upward, or rejected with memory unchanged. Either way it is the one Load
of its Reset (R274). -/
def load (bytes : List Byte) (s : State) : State :=
  { s with
    memory := if loadRejected bytes then s.memory else s.memory.writeBytes Config.loadBase bytes
    loadOpen := false }

/-- The event Load: it has a meaning once after a Reset and before the first Step (R274); elsewhere it is refused.
DESIGN CHOICE, notes/assumptions/9.md (safe). -/
def loadEvent (bytes : List Byte) (s : State) : Host.Outcome State Fault Refusal :=
  if s.loadOpen then .next (load bytes s) else .refused .loadOutOfPlace

/-- What ReadFramebuffer returns to the host; it changes nothing (R243). -/
def readFramebuffer (s : State) : Video := s.video

end Sys2Proof.Machine
end

