-- ==== Sys2Proof/Machine/Cycle.lean ====
section
/-! DEFINITION. The Step event (spec/30_encoding.md R91), one event of the host's schedule (spec/00_scope.md R9), and
storing a word where the next Step fetches it. -/

namespace Sys2Proof.Machine

/-- The word at pc, big-endian (R64). -/
def fetchedWord (s : State) : Word := s.memory.fetchWord s.pc.toNat

/-- Steps 1 and 2 of R91: the word goes into the latch and pc moves past it. From now on no Load is admitted (R274). -/
def preAdvanced (s : State) : State :=
  { s with opcode := fetchedWord s, pc := s.pc + 2#16, loadOpen := false }

/-- A faulted Step keeps nothing but the fault record (R234); the latch, too, is left as it was: DEDUCED,
notes/assumptions/4.md. -/
def faultedStep (s : State) (record : FaultRecord) : State := { s with fault := record, loadOpen := false }

/-- Step 4 of R91: the handler's state is kept, unless the handler raised a fault. -/
def commit (s : State) (out : Host.Outcome State Fault Refusal) : Host.Outcome State Fault Refusal :=
  match out with
  | .next t => if t.fault.halted then .next (faultedStep s t.fault) else .next t
  | .fault f => .fault f
  | .refused r => .refused r

/-- The Step event, steps 0 to 4 of R91. -/
def stepCycle (s : State) : Host.Outcome State Fault Refusal :=
  if s.fault.halted then .next s
  else if 0xFFE < s.pc.toNat then .next (faultedStep s (raiseFetch s).fault)
  else commit s (exec (decodeWord (fetchedWord s)) (preAdvanced s))

/-- One event (R9). -/
def applyEvent (e : Event) (s : State) : Host.Outcome State Fault Refusal :=
  match e with
  | .reset seed => .next (resetEvent seed s)
  | .load bytes => loadEvent bytes s
  | .step => stepCycle s
  | .tick => .next (tick s)
  | .setKey k p => .next (setKey k p s)
  | .readFramebuffer => .next s

/-- The next event of the host's schedule, or a Step when nothing is scheduled: every interleaving of the events of R9
is the run of some schedule. DESIGN CHOICE, notes/assumptions/8.md. -/
def nextEvent (s : State) : Host.Outcome State Fault Refusal :=
  match s.schedule with
  | [] => stepCycle s
  | e :: rest => applyEvent e { s with schedule := rest }

/-- The event the next step performs (R9): the first one of the schedule, a Step when nothing is scheduled. -/
def dueEvent (s : State) : Event := s.schedule.headD .step

/-- The optional output of R246, during the event the next step performs: 1 when that is a Step that executes the no-op
of R98, 0 during any other Step and any other event. The word itself is then on the latch `opcode`. No rule reads it. -/
def unmappedOutput (s : State) : Bool :=
  decide (dueEvent s = .step) && !s.fault.halted && decide (s.pc.toNat ≤ 0xFFE) && unmappedWord (fetchedWord s)

/-- The state with the word stored at pc, and nothing in the way of the next step's fetching it: nothing scheduled, not
halted. DESIGN CHOICE, notes/assumptions/5.md. -/
def placeWord (s : State) (nbits w : Nat) : State :=
  { s with
    memory := s.memory.writeBytes s.pc.toNat (tableWordBytes nbits w)
    schedule := []
    fault := { s.fault with halted := false } }

end Sys2Proof.Machine
end

