-- ==== Sys2Proof/Machine/Step.lean ====
section
/-! DEFINITION. One step of the machine: one event of the host, a Step where nothing else is scheduled. -/

namespace Sys2Proof.Machine

/-- One atomic event (spec/00_scope.md R9), by default the Step of spec/30_encoding.md R91. -/
def step (s : State) : Host.Outcome State Fault Refusal := nextEvent s

/-- The state whose next step fetches and runs the instruction given as the low `nbits` bits of `w`. -/
def State.withFetchWord (s : State) (nbits w : Nat) : State := placeWord s nbits w

end Sys2Proof.Machine
end

