-- ==== Sys2Proof/Safety.lean ====
section
/-! DEFINITION. What counts as a safe run and as the end of one, in the terms claims use. -/

namespace Sys2Proof.Machine

/-- A fault has been recorded since Reset (spec/60_exceptions.md R235). A run that faults has not completed. -/
def Faulted (s : State) : Bool := s.fault.halted

/-- END_OF_RUN as spec/92_eei_decisions.md D20 suggests: the word at pc jumps to pc itself, and no fault is recorded.
It does not say that the host stops there. DESIGN CHOICE, notes/assumptions/15.md. -/
def EndOfRun (s : State) : Bool :=
  !s.fault.halted && decide (s.pc.toNat ≤ 0xFFE) &&
    (match decodeWord (fetchedWord s) with
     | .jp nnn => zextAddr nnn == s.pc
     | _ => false)

/-- From s, k steps all go on (no refusal) and none of the states passed has a fault recorded. -/
def SafeFor (s : State) (k : Nat) : Prop :=
  ∀ j ≤ k, ∃ t, Host.Core.run Sys2Proof.core j s = .next t ∧ Faulted t = false

/-- A safe run from s that ends: after k steps it is at the end of a run. -/
def CompletesIn (s : State) (k : Nat) : Prop :=
  SafeFor s k ∧ ∃ t, Host.Core.run Sys2Proof.core k s = .next t ∧ EndOfRun t = true

end Sys2Proof.Machine
end

