-- ==== Sys2Proof/Certificates/Slice0/Obligations.lean ====
section
/-! DEFINITION. The statements for the provers. In a statement about `exec`, `s` is the state a handler starts in: pc is
the address of the instruction plus 2 and the latch holds its word (spec/00_scope.md R7; spec/30_encoding.md R91). -/

namespace Sys2Proof.Claims

open Sys2Proof Sys2Proof.Machine

/-- What a fault leaves, in a handler (R231, R234): the record, and pc at the instruction. -/
def faultTaken (cause : Cause) (faddr : Nat) (s : State) : State :=
  { s with
    pc := s.pc - 2#16
    fault := { halted := true, cause := cause, fpc := s.pc - 2#16, fop := s.opcode, faddr := BitVec.ofNat 17 faddr } }

/-- R231, the rows of the instructions: the cause and the address recorded, where the condition holds. -/
def faultOf (i : Instr) (s : State) : Option (Cause × Nat) :=
  match i with
  | .call _ => if s.sp.val = 16 then some (.stackOverflow, 0) else none
  | .ret => if s.sp.val = 0 then some (.stackUnderflow, 0) else none
  | .drwVxVyN _ _ n =>
    if 0 < n.toNat ∧ 0xFFF < s.I.toNat + n.toNat - 1 then some (.memData, s.I.toNat + n.toNat - 1) else none
  | .ldBVx _ => if 0xFFF < s.I.toNat + 2 then some (.memData, s.I.toNat + 2) else none
  | .ldMemVx x => if 0xFFF < s.I.toNat + x.toNat then some (.memData, s.I.toNat + x.toNat) else none
  | .ldVxMem x => if 0xFFF < s.I.toNat + x.toNat then some (.memData, s.I.toNat + x.toNat) else none
  | _ => none

/-- What an instruction stores at address a (R173, R174); an instruction that faults, or has no destination in memory,
stores nothing. -/
def storedByte (i : Instr) (s : State) (a : Nat) : Option Byte :=
  match faultOf i s, i with
  | none, .ldMemVx x =>
    if s.I.toNat ≤ a ∧ a ≤ s.I.toNat + x.toNat then some (s.getV (BitVec.ofNat 4 (a - s.I.toNat))) else none
  | none, .ldBVx x =>
    if a = s.I.toNat then some (BitVec.ofNat 8 ((s.getV x).toNat / 100))
    else if a = s.I.toNat + 1 then some (BitVec.ofNat 8 ((s.getV x).toNat / 10 % 10))
    else if a = s.I.toNat + 2 then some (BitVec.ofNat 8 ((s.getV x).toNat % 10))
    else none
  | _, _ => none

/-- The sprite of DRW Vx, Vy, n has a set bit over pixel (px, py): only the start position wraps (R192, R193). -/
def spriteBit (x y n : Nibble) (s : State) (px py : Nat) : Bool :=
  let xs := (s.getV x).toNat % 64
  let ys := (s.getV y).toNat % 32
  decide (xs ≤ px ∧ px < xs + 8 ∧ ys ≤ py ∧ py < ys + n.toNat) &&
    (s.memory.read (s.I.toNat + (py - ys))).getLsbD (7 - (px - xs))

/-- DRW reads nothing above 0xFFF (R66, R192 line 2). -/
abbrev spriteInRange (n : Nibble) (s : State) : Prop := n.toNat = 0 ∨ s.I.toNat + n.toNat - 1 ≤ 0xFFF

/-- R25, R44: pc never exceeds 0x10FE and no live stack entry exceeds 0x1000. -/
def PcAndStackBounded (s : State) : Prop :=
  s.pc.toNat ≤ 0x10FE ∧ ∀ k : Fin 16, k.val < s.sp.val → (s.stack[k]).toNat ≤ 0x1000

/-- R231: what the record says of the fault it names, row by row (I and sp do not change while halted); clear while not
halted. -/
def FaultRecordTruthful (s : State) : Prop :=
  (s.fault.halted = false → s.fault = FaultRecord.clear) ∧
  (s.fault.halted = true → s.pc = s.fault.fpc) ∧
  match s.fault.cause with
  | .none => s.fault.halted = false
  | .stackOverflow => s.fault.halted = true ∧ s.fault.faddr = 0#17 ∧ s.sp.val = 16 ∧
      ∃ nnn, decodeWord s.fault.fop = .call nnn
  | .stackUnderflow => s.fault.halted = true ∧ s.fault.faddr = 0#17 ∧ s.sp.val = 0 ∧ decodeWord s.fault.fop = .ret
  | .memFetch => s.fault.halted = true ∧ s.fault.fop = 0#16 ∧ 0xFFE < s.fault.fpc.toNat ∧
      s.fault.faddr.toNat = s.fault.fpc.toNat + 1
  | .memData => s.fault.halted = true ∧ 0xFFF < s.fault.faddr.toNat ∧
      ((∃ x y n, decodeWord s.fault.fop = .drwVxVyN x y n ∧ 0 < n.toNat ∧
          s.fault.faddr.toNat = s.I.toNat + n.toNat - 1) ∨
       (∃ x, decodeWord s.fault.fop = .ldBVx x ∧ s.fault.faddr.toNat = s.I.toNat + 2) ∨
       (∃ x, decodeWord s.fault.fop = .ldMemVx x ∧ s.fault.faddr.toNat = s.I.toNat + x.toNat) ∨
       (∃ x, decodeWord s.fault.fop = .ldVxMem x ∧ s.fault.faddr.toNat = s.I.toNat + x.toNat))

end Sys2Proof.Claims

open Sys2Proof Sys2Proof.Machine Sys2Proof.Claims

/-! ## Encoding and decoding -/

/-- Words written out from R97 and R100 decode to what they stand for; the last ones are aliases and unmapped words. -/
def Obligations.WrittenOutWordsDecode : Prop :=
  decodeWord 0x00E0#16 = .cls ∧ decodeWord 0x0000#16 = .cls ∧ decodeWord 0x0ABE#16 = .ret ∧
  decodeWord 0x1204#16 = .jp 0x204#12 ∧ decodeWord 0x4A10#16 = .sneVxKk 0xA#4 0x10#8 ∧
  decodeWord 0x8127#16 = .subnVxVy 0x1#4 0x2#4 ∧ decodeWord 0x8126#16 = .shrVx 0x1#4 ∧
  decodeWord 0x512F#16 = .seVxVy 0x1#4 0x2#4 ∧ decodeWord 0xA300#16 = .ldIAddr 0x300#12 ∧
  decodeWord 0xC10F#16 = .rndVxKk 0x1#4 0x0F#8 ∧ decodeWord 0xD012#16 = .drwVxVyN 0x0#4 0x1#4 0x2#4 ∧
  decodeWord 0xE00E#16 = .skpVx 0x0#4 ∧ decodeWord 0xF255#16 = .ldMemVx 0x2#4 ∧
  decodeWord 0xE09F#16 = .nopUnmapped 0xE09F#16 ∧ decodeWord 0xF0FF#16 = .nopUnmapped 0xF0FF#16

/-- Decoding the bytes of an encoded well-formed instruction gives it back, with the bytes after it. -/
def Obligations.DecodeOfEncodedBytesIsTheInstruction : Prop :=
  ∀ (i : Instr) (rest : List Byte), i.wellFormed = true → decode (encodeBytes i ++ rest) = .ok (i, rest)

/-- R97: no word matches two rows; a word that matches a row decodes to that row's instruction with the row's fields;
a word that matches none is unmapped. -/
def Obligations.DecoderFollowsTheOpcodeMap : Prop :=
  (∀ r ∈ opcodeTable, ∀ w, r.matchesWord w = true → decodeWord w = r.build w) ∧
  (∀ w, (∀ r ∈ opcodeTable, r.matchesWord w = false) → decodeWord w = .nopUnmapped w) ∧
  opcodeTable.Pairwise fun r q => ∀ w, ¬(r.matchesWord w = true ∧ q.matchesWord w = true)

/-- R99's list of unmapped words is exactly the complement of R97's rows. -/
def Obligations.UnmappedWordsAreTheComplementOfTheMap : Prop :=
  ∀ w, unmappedWord w = true ↔ ∀ r ∈ opcodeTable, r.matchesWord w = false

/-- R96: every alias decodes as the canonical word does, whatever its don't-care bits. -/
def Obligations.AliasesDecodeAsTheCanonicalWord : Prop :=
  ∀ a b x y : Nibble,
    decodeWord (packXYN 0x0#4 a b 0x0#4) = .cls ∧ decodeWord (packXYN 0x0#4 a b 0xE#4) = .ret ∧
    decodeWord (packXYN 0x5#4 x y a) = .seVxVy x y ∧ decodeWord (packXYN 0x9#4 x y a) = .sneVxVy x y ∧
    decodeWord (packXYN 0xE#4 x a 0xE#4) = .skpVx x ∧ decodeWord (packXYN 0xE#4 x a 0x1#4) = .sknpVx x ∧
    decodeWord (packXYN 0x8#4 x a 0x6#4) = .shrVx x ∧ decodeWord (packXYN 0x8#4 x a 0xE#4) = .shlVx x

/-! ## The Step and the events -/

/-- R64: the byte at pc holds bits 15:8 of the fetched word, the byte at pc + 1 bits 7:0. -/
def Obligations.FetchIsBigEndian : Prop :=
  ∀ s : State, (fetchedWord s).toNat = 256 * (s.memory.read s.pc.toNat).toNat + (s.memory.read (s.pc.toNat + 1)).toNat

/-- R91: with nothing scheduled (log entry 8), a step is the Step. Halted, it changes nothing; past 0xFFE, it records the
fetch fault and nothing else; else it runs the instruction the two bytes at pc decode to, on the state whose latch holds
the word and whose pc is 2 further, and keeps only the fault record if that raised a fault. That the latch is restored
after a fault is the model's reading (log entry 4); `loadOpen` is the model's own (log entry 9). -/
def Obligations.StepRunsTheDecodedInstruction : Prop :=
  ∀ s : State, s.schedule = [] →
    (s.fault.halted = true → step s = .next s) ∧
    (s.fault.halted = false → 0xFFE < s.pc.toNat →
      step s = .next { s with
        fault := { halted := true, cause := .memFetch, fpc := s.pc, fop := 0#16,
                   faddr := BitVec.ofNat 17 (s.pc.toNat + 1) }
        loadOpen := false }) ∧
    (s.fault.halted = false → s.pc.toNat ≤ 0xFFE → ∀ (i : Instr) (t : State),
      decode [s.memory.read s.pc.toNat, s.memory.read (s.pc.toNat + 1)] = .ok (i, []) →
      exec i { s with opcode := fetchedWord s, pc := s.pc + 2#16, loadOpen := false } = .next t →
      step s = .next (if t.fault.halted then { s with fault := t.fault, loadOpen := false } else t))

/-- R91, "never blocks, never retries": every instruction answers a next state in every state, and so does every Step
event; that a faulting one does, with the record written, is log entry 3 (a run that faults has not completed, R235). The
only step of the machine that answers none is a Load out of its place, which is refused (log entry 9). -/
def Obligations.EveryStepAnswersANextState : Prop :=
  (∀ (i : Instr) (s : State), ∃ t, exec i s = .next t) ∧
  (∀ s : State, ∃ t, stepCycle s = .next t) ∧
  (∀ s : State, (∃ t, step s = .next t) ∨
    (step s = .refused .loadOutOfPlace ∧ s.loadOpen = false ∧ ∃ b rest, s.schedule = .load b :: rest))

/-- R9: a scheduled event is performed whole, the first one first, and nothing but it happens in that step. The schedule
is the model's own way to hold the host's events (log entry 8), Reset leaves what is still to come in it and carries its
RNG_SEED (log entries 7, 8), and when a Load is admitted is log entry 9. -/
def Obligations.ScheduledEventsHappenInOrder : Prop :=
  ∀ (s : State) (rest : List Event) (k : Nibble) (p : Bool) (seed : Nat),
    step { s with schedule := .tick :: rest } = .next (tick { s with schedule := rest }) ∧
    step { s with schedule := .setKey k p :: rest } = .next (setKey k p { s with schedule := rest }) ∧
    step { s with schedule := .readFramebuffer :: rest } = .next { s with schedule := rest } ∧
    step { s with schedule := .step :: rest } = stepCycle { s with schedule := rest } ∧
    (s.loadOpen = true → ∀ b, step { s with schedule := .load b :: rest } = .next (load b { s with schedule := rest })) ∧
    step { s with schedule := .reset seed :: rest } = .next { State.resetWith s.font seed with schedule := rest }

/-- R240: each timer above 0 goes down by 1, a timer at 0 stays, nothing else changes. -/
def Obligations.TickCountsBothTimersDown : Prop :=
  ∀ s : State,
    tick s = { s with DT := (tick s).DT, ST := (tick s).ST } ∧
    (tick s).DT.toNat = s.DT.toNat - 1 ∧ (tick s).ST.toNat = s.ST.toNat - 1

/-- R242: SetKey writes one key and nothing else. -/
def Obligations.SetKeyWritesOneKey : Prop :=
  ∀ (k : Nibble) (p : Bool) (s : State),
    setKey k p s = { s with key := (setKey k p s).key } ∧
    ∀ j : Nibble, (setKey k p s).keyDown j = if j = k then p else s.keyDown j

/-- R272, R273: an image of at most 3584 bytes is copied to 0x200 upward, every other byte stays; a longer one is
reported and changes nothing. `loadOpen`, the model's own, is left out of the comparison (log entry 9); memory is in its
canonical form (log entry 13). -/
def Obligations.LoadCopiesOrRejectsTheImage : Prop :=
  ∀ (b : List Byte) (s : State), s.memory.wf = true →
    (b.length ≤ 3584 →
      loadRejected b = false ∧ { load b s with memory := s.memory, loadOpen := s.loadOpen } = s ∧
      ∀ a : Nat, (load b s).memory.read a =
        if h : 0x200 ≤ a ∧ a < 0x200 + b.length then b[a - 0x200] else s.memory.read a) ∧
    (3584 < b.length → loadRejected b = true ∧ { load b s with loadOpen := s.loadOpen } = s)

/-- R274 as log entry 9 holds it (the spec gives any other Load no meaning): after a Load, accepted or rejected, or a Step
that did not find the engine halted, no Load is admitted, one that is scheduled then is refused, and only a Reset admits
one again. -/
def Obligations.LateLoadIsRefused : Prop :=
  (∀ (b : List Byte) (s t : State), applyEvent (.load b) s = .next t → t.loadOpen = false) ∧
  (∀ s t : State, s.fault.halted = false → stepCycle s = .next t → t.loadOpen = false) ∧
  (∀ (b : List Byte) (rest : List Event) (s : State), s.loadOpen = false →
    step { s with schedule := .load b :: rest } = .refused .loadOutOfPlace) ∧
  (∀ (s t : State), s.loadOpen = false → step s = .next t → t.loadOpen = true →
    ∃ seed rest, s.schedule = .reset seed :: rest)

/-- R45: every register, timer, key, pixel and stack entry 0, pc at 0x200, the record clear; and for every FONT and
RNG_SEED the same, with memory 0x00 but for that FONT at 0x050 and the random source seeded. That a source just seeded has
drawn nothing is log entry 6. -/
def Obligations.ResetLeavesTheStatedValues : Prop :=
  (∀ x : Nibble, State.reset.getV x = 0#8) ∧ State.reset.I = 0#16 ∧ State.reset.pc = 0x0200#16 ∧
  (∀ k : Fin 16, State.reset.stack[k] = 0#16) ∧ State.reset.sp.val = 0 ∧ State.reset.DT = 0#8 ∧ State.reset.ST = 0#8 ∧
  (∀ k : Nibble, State.reset.keyDown k = false) ∧ (∀ p (h : p < 2048), State.reset.video[p] = false) ∧
  State.reset.opcode = 0#16 ∧
  State.reset.fault = { halted := false, cause := .none, fpc := 0#16, fop := 0#16, faddr := 0#17 } ∧
  (∀ (font : FontTable) (seed : Nat),
    (∃ m, State.resetWith font seed = { State.reset with memory := m, rng := RngState.seeded seed, font := font }) ∧
    ∀ a : Nat, (State.resetWith font seed).memory.read a =
      if h : 0x050 ≤ a ∧ a < 0x0A0 then font[a - 0x050] else 0x00#8)

/-- R270, R271: the Reset event gives the reset state of the machine's FONT and the event's RNG_SEED from every state,
faulted or not, program and all. That RNG_SEED comes with the event is log entry 7; that the host's schedule goes on is
log entry 8. -/
def Obligations.ResetEventIsTotal : Prop :=
  ∀ (s : State) (seed : Nat) (rest : List Event),
    step { s with schedule := .reset seed :: rest } = .next { State.resetWith s.font seed with schedule := rest }

/-- R5, R63: FONT is fixed: no step changes it, whatever event it is (log entry 2). -/
def Obligations.EveryStepKeepsTheFont : Prop := ∀ s t : State, step s = .next t → t.font = s.font

/-! ## Control transfer and the no-op -/

/-- R121, R123: the target is nnn, or nnn + V0 mod 2^16, which never wraps and is not masked; nothing else changes. -/
def Obligations.JumpsSetPc : Prop :=
  ∀ (nnn : Addr) (s : State),
    decodeWord (packA 0x1#4 nnn) = .jp nnn ∧ decodeWord (packA 0xB#4 nnn) = .jpV0 nnn ∧
    (∃ t, exec (.jp nnn) s = .next t ∧ t = { s with pc := t.pc } ∧ t.pc.toNat = nnn.toNat) ∧
    (∃ t, exec (.jpV0 nnn) s = .next t ∧ t = { s with pc := t.pc } ∧
      t.pc.toNat = nnn.toNat + (s.getV 0x0#4).toNat)

/-- R122: CALL pushes the pre-advanced pc and jumps; with 16 entries live it faults and changes nothing else. -/
def Obligations.CallPushesAndJumps : Prop :=
  ∀ (nnn : Addr) (s : State),
    decodeWord (packA 0x2#4 nnn) = .call nnn ∧
    (s.sp.val ≠ 16 → ∃ t, exec (.call nnn) s = .next t ∧
      t = { s with stack := t.stack, sp := t.sp, pc := t.pc } ∧
      t.sp.val = s.sp.val + 1 ∧ t.pc.toNat = nnn.toNat ∧
      ∀ k : Fin 16, t.stack[k] = if k.val = s.sp.val then s.pc else s.stack[k]) ∧
    (s.sp.val = 16 → exec (.call nnn) s = .next (faultTaken .stackOverflow 0 s))

/-- R120: RET pops the entry below sp into pc and does not clear it; with none live it faults and changes nothing else. -/
def Obligations.ReturnPopsIntoPc : Prop :=
  (∀ a b : Nibble, decodeWord (packXYN 0x0#4 a b 0xE#4) = .ret) ∧
  ∀ s : State,
    (s.sp.val ≠ 0 → ∃ t, exec .ret s = .next t ∧ t = { s with sp := t.sp, pc := t.pc } ∧
      t.sp.val = s.sp.val - 1 ∧ ∀ k : Fin 16, k.val = s.sp.val - 1 → t.pc = s.stack[k]) ∧
    (s.sp.val = 0 → exec .ret s = .next (faultTaken .stackUnderflow 0 s))

/-- A RET at any later address undoes a CALL: pc comes back to the word after the CALL and sp to what it was (the
document's example, R122). -/
def Obligations.ReturnUndoesCall : Prop :=
  ∀ (nnn : Addr) (p : Word) (s : State), s.sp.val ≠ 16 → ∃ t u,
    exec (.call nnn) s = .next t ∧ exec .ret { t with pc := p } = .next u ∧ u = { s with stack := t.stack }

/-- R124 to R127, R129: SE and SNE add 2 to the pre-advanced pc when their condition holds, and change nothing else. -/
def Obligations.RegisterSkipsAddTwo : Prop :=
  ∀ (x y a : Nibble) (kk : Byte) (s : State),
    decodeWord (packXK 0x3#4 x kk) = .seVxKk x kk ∧ decodeWord (packXK 0x4#4 x kk) = .sneVxKk x kk ∧
    decodeWord (packXYN 0x5#4 x y a) = .seVxVy x y ∧ decodeWord (packXYN 0x9#4 x y a) = .sneVxVy x y ∧
    exec (.seVxKk x kk) s = .next { s with pc := if s.getV x = kk then s.pc + 2#16 else s.pc } ∧
    exec (.sneVxKk x kk) s = .next { s with pc := if s.getV x ≠ kk then s.pc + 2#16 else s.pc } ∧
    exec (.seVxVy x y) s = .next { s with pc := if s.getV x = s.getV y then s.pc + 2#16 else s.pc } ∧
    exec (.sneVxVy x y) s = .next { s with pc := if s.getV x ≠ s.getV y then s.pc + 2#16 else s.pc }

/-- R210, R211: the key is the low nibble of V[x]; SKP skips when it is down, SKNP when it is up; nothing else changes. -/
def Obligations.KeySkipsTestTheLowNibble : Prop :=
  ∀ (x a : Nibble) (s : State) (k : Nibble), k.toNat = (s.getV x).toNat % 16 →
    decodeWord (packXYN 0xE#4 x a 0xE#4) = .skpVx x ∧ decodeWord (packXYN 0xE#4 x a 0x1#4) = .sknpVx x ∧
    exec (.skpVx x) s = .next { s with pc := if s.keyDown k = true then s.pc + 2#16 else s.pc } ∧
    exec (.sknpVx x) s = .next { s with pc := if s.keyDown k = false then s.pc + 2#16 else s.pc }

/-- R98, R99, R153: an unmapped word decodes to the no-op, which changes nothing, so that a Step at one moves pc on by 2,
writes the latch and does nothing else; family 8 with bits 3:0 in 8, 9, A, B, C, D, F is such a word. `loadOpen` is the
model's own (log entry 9). -/
def Obligations.UnmappedWordsDoNothing : Prop :=
  (∀ w : Word, unmappedWord w = true → ∀ s : State, decodeWord w = .nopUnmapped w ∧ exec (decodeWord w) s = .next s) ∧
  (∀ s : State, s.fault.halted = false → s.pc.toNat ≤ 0xFFE → unmappedWord (fetchedWord s) = true →
    stepCycle s = .next { s with pc := s.pc + 2#16, opcode := fetchedWord s, loadOpen := false }) ∧
  (∀ x y n : Nibble, n ∈ [0x8#4, 0x9#4, 0xA#4, 0xB#4, 0xC#4, 0xD#4, 0xF#4] →
    ∀ s : State, exec (decodeWord (packXYN 0x8#4 x y n)) s = .next s)

/-- R246: the output is 1 exactly while the event that comes is a Step that executes the no-op, so 0 during every other
event, a halted Step, a fetch fault and every other instruction; the word is then on the latch, and nothing but pc has
changed. What comes is the schedule's to say (log entry 8), the output is a function (log entry 14), `loadOpen` the
model's own (log entry 9). -/
def Obligations.UnmappedOutputMarksTheNoOp : Prop :=
  ∀ s : State,
    (unmappedOutput s = true ↔
      (s.schedule = [] ∨ ∃ rest, s.schedule = .step :: rest) ∧ s.fault.halted = false ∧ s.pc.toNat ≤ 0xFFE ∧
      decodeWord (fetchedWord s) = .nopUnmapped (fetchedWord s)) ∧
    (unmappedOutput s = true → step s = .next { s with
      pc := s.pc + 2#16, opcode := fetchedWord s, loadOpen := false, schedule := s.schedule.tail })

/-! ## Register loads and the ALU -/

/-- R140, R144: the destination takes the immediate or the source; no other register and nothing else changes. -/
def Obligations.RegisterLoadsWriteOneRegister : Prop :=
  ∀ (x y : Nibble) (kk : Byte) (s : State),
    decodeWord (packXK 0x6#4 x kk) = .ldVxKk x kk ∧ decodeWord (packXYN 0x8#4 x y 0x0#4) = .ldVxVy x y ∧
    (∃ t, exec (.ldVxKk x kk) s = .next t ∧ t = { s with V := t.V } ∧
      ∀ j, t.getV j = if j = x then kk else s.getV j) ∧
    (∃ t, exec (.ldVxVy x y) s = .next t ∧ t = { s with V := t.V } ∧
      ∀ j, t.getV j = if j = x then s.getV y else s.getV j)

/-- R141: the sum mod 256; VF is written only as the destination. -/
def Obligations.AddImmediateSetsNoFlag : Prop :=
  ∀ (x : Nibble) (kk : Byte) (s : State),
    decodeWord (packXK 0x7#4 x kk) = .addVxKk x kk ∧
    ∃ t, exec (.addVxKk x kk) s = .next t ∧ t = { s with V := t.V } ∧
      ∀ j, (t.getV j).toNat = if j = x then ((s.getV x).toNat + kk.toNat) % 256 else (s.getV j).toNat

/-- R145, R146, R147: bit by bit, and VF is written only as the destination. -/
def Obligations.BitwiseOperationsSetNoFlag : Prop :=
  ∀ (x y : Nibble) (s : State),
    decodeWord (packXYN 0x8#4 x y 0x1#4) = .orVxVy x y ∧ decodeWord (packXYN 0x8#4 x y 0x2#4) = .andVxVy x y ∧
    decodeWord (packXYN 0x8#4 x y 0x3#4) = .xorVxVy x y ∧
    (∃ t, exec (.orVxVy x y) s = .next t ∧ t = { s with V := t.V } ∧ ∀ j b, (t.getV j).getLsbD b =
      if j = x then ((s.getV x).getLsbD b || (s.getV y).getLsbD b) else (s.getV j).getLsbD b) ∧
    (∃ t, exec (.andVxVy x y) s = .next t ∧ t = { s with V := t.V } ∧ ∀ j b, (t.getV j).getLsbD b =
      if j = x then ((s.getV x).getLsbD b && (s.getV y).getLsbD b) else (s.getV j).getLsbD b) ∧
    (∃ t, exec (.xorVxVy x y) s = .next t ∧ t = { s with V := t.V } ∧ ∀ j b, (t.getV j).getLsbD b =
      if j = x then ((s.getV x).getLsbD b ^^ (s.getV y).getLsbD b) else (s.getV j).getLsbD b)

/-- R148: the sum mod 256 in V[x], then the carry in VF, which wins when x = 0xF; both from the operands as they were. -/
def Obligations.AddRegistersWritesSumThenCarry : Prop :=
  ∀ (x y : Nibble) (s : State),
    decodeWord (packXYN 0x8#4 x y 0x4#4) = .addVxVy x y ∧
    ∃ t, exec (.addVxVy x y) s = .next t ∧ t = { s with V := t.V } ∧
      ∀ j, (t.getV j).toNat =
        if j = 0xF#4 then (if 255 < (s.getV x).toNat + (s.getV y).toNat then 1 else 0)
        else if j = x then ((s.getV x).toNat + (s.getV y).toNat) % 256 else (s.getV j).toNat

/-- R149, R151: the difference mod 256 in V[x], then no-borrow in VF, which wins when x = 0xF. -/
def Obligations.SubtractionsWriteDifferenceThenNoBorrow : Prop :=
  ∀ (x y : Nibble) (s : State),
    decodeWord (packXYN 0x8#4 x y 0x5#4) = .subVxVy x y ∧ decodeWord (packXYN 0x8#4 x y 0x7#4) = .subnVxVy x y ∧
    (∃ t, exec (.subVxVy x y) s = .next t ∧ t = { s with V := t.V } ∧ ∀ j, (t.getV j).toNat =
      if j = 0xF#4 then (if (s.getV y).toNat ≤ (s.getV x).toNat then 1 else 0)
      else if j = x then ((s.getV x).toNat + 256 - (s.getV y).toNat) % 256 else (s.getV j).toNat) ∧
    (∃ t, exec (.subnVxVy x y) s = .next t ∧ t = { s with V := t.V } ∧ ∀ j, (t.getV j).toNat =
      if j = 0xF#4 then (if (s.getV x).toNat ≤ (s.getV y).toNat then 1 else 0)
      else if j = x then ((s.getV y).toNat + 256 - (s.getV x).toNat) % 256 else (s.getV j).toNat)

/-- R150, R152: half or double of V[x] itself, whatever the y field of the word; then the bit shifted out in VF, which
wins when x = 0xF. -/
def Obligations.ShiftsWriteResultThenBitOut : Prop :=
  ∀ (x a : Nibble) (s : State),
    decodeWord (packXYN 0x8#4 x a 0x6#4) = .shrVx x ∧ decodeWord (packXYN 0x8#4 x a 0xE#4) = .shlVx x ∧
    (∃ t, exec (.shrVx x) s = .next t ∧ t = { s with V := t.V } ∧ ∀ j, (t.getV j).toNat =
      if j = 0xF#4 then (s.getV x).toNat % 2 else if j = x then (s.getV x).toNat / 2 else (s.getV j).toNat) ∧
    (∃ t, exec (.shlVx x) s = .next t ∧ t = { s with V := t.V } ∧ ∀ j, (t.getV j).toNat =
      if j = 0xF#4 then (s.getV x).toNat / 128 else if j = x then (s.getV x).toNat * 2 % 256 else (s.getV j).toNat)

/-! ## The index register and memory -/

/-- R170, R171, R172: I takes nnn, or I + V[x] mod 2^16, or 0x050 + 5 * V[x] unmasked; nothing else changes. -/
def Obligations.IndexInstructionsSetOnlyI : Prop :=
  ∀ (nnn : Addr) (x : Nibble) (s : State),
    decodeWord (packA 0xA#4 nnn) = .ldIAddr nnn ∧ decodeWord (packXK 0xF#4 x 0x1E#8) = .addIVx x ∧
    decodeWord (packXK 0xF#4 x 0x29#8) = .ldFVx x ∧
    (∃ t, exec (.ldIAddr nnn) s = .next t ∧ t = { s with I := t.I } ∧ t.I.toNat = nnn.toNat) ∧
    (∃ t, exec (.addIVx x) s = .next t ∧ t = { s with I := t.I } ∧
      t.I.toNat = (s.I.toNat + (s.getV x).toNat) % 65536) ∧
    (∃ t, exec (.ldFVx x) s = .next t ∧ t = { s with I := t.I } ∧ t.I.toNat = 0x050 + 5 * (s.getV x).toNat)

/-- R173: three digits at I, I+1, I+2 and no other byte; past 0xFFF a fault and nothing written. -/
def Obligations.DecimalStoreWritesThreeDigits : Prop :=
  ∀ (x : Nibble) (s : State), s.memory.wf = true →
    decodeWord (packXK 0xF#4 x 0x33#8) = .ldBVx x ∧
    (s.I.toNat + 2 ≤ 0xFFF → ∃ t, exec (.ldBVx x) s = .next t ∧ t = { s with memory := t.memory } ∧
      (t.memory.read s.I.toNat).toNat = (s.getV x).toNat / 100 ∧
      (t.memory.read (s.I.toNat + 1)).toNat = (s.getV x).toNat / 10 % 10 ∧
      (t.memory.read (s.I.toNat + 2)).toNat = (s.getV x).toNat % 10 ∧
      ∀ a, a < s.I.toNat ∨ s.I.toNat + 2 < a → t.memory.read a = s.memory.read a) ∧
    (0xFFF < s.I.toNat + 2 → exec (.ldBVx x) s = .next (faultTaken .memData (s.I.toNat + 2) s))

/-- R174: V0 to Vx at I .. I+x and no other byte, I kept; past 0xFFF a fault and nothing written. -/
def Obligations.RegisterStoreWritesVZeroToVx : Prop :=
  ∀ (x : Nibble) (s : State), s.memory.wf = true →
    decodeWord (packXK 0xF#4 x 0x55#8) = .ldMemVx x ∧
    (s.I.toNat + x.toNat ≤ 0xFFF → ∃ t, exec (.ldMemVx x) s = .next t ∧ t = { s with memory := t.memory } ∧
      (∀ k : Nibble, k.toNat ≤ x.toNat → t.memory.read (s.I.toNat + k.toNat) = s.getV k) ∧
      ∀ a, a < s.I.toNat ∨ s.I.toNat + x.toNat < a → t.memory.read a = s.memory.read a) ∧
    (0xFFF < s.I.toNat + x.toNat → exec (.ldMemVx x) s = .next (faultTaken .memData (s.I.toNat + x.toNat) s))

/-- R175: V0 to Vx from I .. I+x, the registers above x and all else kept; past 0xFFF a fault and nothing loaded. -/
def Obligations.RegisterLoadReadsVZeroToVx : Prop :=
  ∀ (x : Nibble) (s : State),
    decodeWord (packXK 0xF#4 x 0x65#8) = .ldVxMem x ∧
    (s.I.toNat + x.toNat ≤ 0xFFF → ∃ t, exec (.ldVxMem x) s = .next t ∧ t = { s with V := t.V } ∧
      ∀ k : Nibble, t.getV k = if k.toNat ≤ x.toNat then s.memory.read (s.I.toNat + k.toNat) else s.getV k) ∧
    (0xFFF < s.I.toNat + x.toNat → exec (.ldVxMem x) s = .next (faultTaken .memData (s.I.toNat + x.toNat) s))

/-- What LD [I], Vx stores, LD Vx, [I] at the same I loads back, whatever the registers hold in between. -/
def Obligations.StoredRegistersLoadBack : Prop :=
  ∀ (x : Nibble) (s t : State) (W : Vector Byte 16), s.memory.wf = true → s.I.toNat + x.toNat ≤ 0xFFF →
    exec (.ldMemVx x) s = .next t →
    ∃ u, exec (.ldVxMem x) { t with V := W } = .next u ∧
      ∀ k : Nibble, k.toNat ≤ x.toNat → u.getV k = s.getV k

/-- R73: the word fetched at any address after any instruction is spelled by the bytes it stored there, or by those that
stood there before, one byte or both, with nothing in between. -/
def Obligations.StoredInstructionIsFetchedNext : Prop :=
  ∀ (i : Instr) (s t : State) (p : Word), s.memory.wf = true → exec i s = .next t →
    fetchedWord { t with pc := p } =
      wordOfBytes ((storedByte i s p.toNat).getD (s.memory.read p.toNat))
        ((storedByte i s (p.toNat + 1)).getD (s.memory.read (p.toNat + 1)))

/-! ## Display -/

/-- R190: every pixel off and nothing else changed, for every word of CLS. -/
def Obligations.ClearTurnsEveryPixelOff : Prop :=
  (∀ a b : Nibble, decodeWord (packXYN 0x0#4 a b 0x0#4) = .cls) ∧
  ∀ s : State, ∃ t, exec .cls s = .next t ∧ t = { s with video := t.video } ∧
    ∀ p (h : p < 2048), t.video[p] = false

/-- R192: DRW is the clipped XOR of the sprite on the framebuffer; VF is 1 exactly when a pixel that was on is turned off,
and 0 otherwise; no other register and nothing else changes; past 0xFFF a fault and nothing drawn. -/
def Obligations.DrawIsTheClippedXorBlit : Prop :=
  ∀ (x y n : Nibble) (s : State),
    decodeWord (packXYN 0xD#4 x y n) = .drwVxVyN x y n ∧
    (spriteInRange n s → ∃ t, exec (.drwVxVyN x y n) s = .next t ∧ t = { s with V := t.V, video := t.video } ∧
      (∀ px py (hx : px < 64) (hy : py < 32), t.video[py * 64 + px] = (s.video[py * 64 + px] ^^ spriteBit x y n s px py)) ∧
      (∀ j, j ≠ 0xF#4 → t.getV j = s.getV j) ∧
      (t.getV 0xF#4 = 1#8 ∨ t.getV 0xF#4 = 0#8) ∧
      (t.getV 0xF#4 = 1#8 ↔
        ∃ px py, ∃ (hx : px < 64) (hy : py < 32), spriteBit x y n s px py = true ∧ s.video[py * 64 + px] = true)) ∧
    (¬ spriteInRange n s → exec (.drwVxVyN x y n) s = .next (faultTaken .memData (s.I.toNat + n.toNat - 1) s))

/-- R195: a second DRW of the same rows at the same start position on the framebuffer the first one left gives back the
framebuffer from before the first, and sets VF exactly when the first one turned a pixel on. -/
def Obligations.DrawingTwiceRestoresTheFramebuffer : Prop :=
  ∀ (x y x' y' n : Nibble) (s s' t : State), spriteInRange n s → spriteInRange n s' →
    (s.getV x).toNat % 64 = (s'.getV x').toNat % 64 → (s.getV y).toNat % 32 = (s'.getV y').toNat % 32 →
    (∀ r, r < n.toNat → s.memory.read (s.I.toNat + r) = s'.memory.read (s'.I.toNat + r)) →
    exec (.drwVxVyN x y n) s = .next t → s'.video = t.video →
    ∃ u, exec (.drwVxVyN x' y' n) s' = .next u ∧ u.video = s.video ∧
      (u.getV 0xF#4 = 1#8 ↔ ∃ p, ∃ h : p < 2048, s.video[p] = false ∧ t.video[p] = true)

/-! ## Keys, timers, random -/

/-- R212: with a key down the smallest one's index goes into V[x]; with none, pc goes back to the instruction; nothing
else changes. -/
def Obligations.KeyWaitStoresTheLowestKeyOrStays : Prop :=
  ∀ (x : Nibble) (s : State),
    decodeWord (packXK 0xF#4 x 0x0A#8) = .ldVxK x ∧
    (∀ k : Nibble, s.keyDown k = true → (∀ j : Nibble, j.toNat < k.toNat → s.keyDown j = false) →
      ∃ t, exec (.ldVxK x) s = .next t ∧ t = { s with V := t.V } ∧
        ∀ j, (t.getV j).toNat = if j = x then k.toNat else (s.getV j).toNat) ∧
    ((∀ k : Nibble, s.keyDown k = false) → exec (.ldVxK x) s = .next { s with pc := s.pc - 2#16 })

/-- R213, R214, R215: the timers are copied and nothing else changes. -/
def Obligations.TimerMovesCopyOneByte : Prop :=
  ∀ (x : Nibble) (s : State),
    decodeWord (packXK 0xF#4 x 0x07#8) = .ldVxDt x ∧ decodeWord (packXK 0xF#4 x 0x15#8) = .ldDtVx x ∧
    decodeWord (packXK 0xF#4 x 0x18#8) = .ldStVx x ∧
    (∃ t, exec (.ldVxDt x) s = .next t ∧ t = { s with V := t.V } ∧
      ∀ j, t.getV j = if j = x then s.DT else s.getV j) ∧
    exec (.ldDtVx x) s = .next { s with DT := s.getV x } ∧
    exec (.ldStVx x) s = .next { s with ST := s.getV x }

/-- R216: V[x] takes the draw masked by kk, so no bit outside kk; the source advances whatever kk; nothing else changes.
The draw is the free value of log entry 6, whatever the seed and the draws before it. -/
def Obligations.RandomIsTheMaskedDraw : Prop :=
  ∀ (x : Nibble) (kk : Byte) (s : State),
    decodeWord (packXK 0xC#4 x kk) = .rndVxKk x kk ∧
    ∃ t, exec (.rndVxKk x kk) s = .next t ∧ t = { s with V := t.V, rng := { s.rng with drawn := s.rng.drawn + 1 } } ∧
      (∀ j b, (t.getV j).getLsbD b =
        if j = x then ((Config.randomByte s.rng.seed s.rng.drawn).getLsbD b && kk.getLsbD b) else (s.getV j).getLsbD b) ∧
      t.getV x &&& ~~~kk = 0#8

/-! ## Faults -/

/-- R231: the causes have the codes 0 to 4; an instruction raises its fault exactly under its row's condition, with the
row's cause and address, the word and the address of the instruction; otherwise the record stays as it was; a fetch
raises MEM_FETCH, with the word recorded as 0 and the address pc + 1, exactly when pc is above 0xFFE, and then no other
fault is raised; below, the Step's record is the instruction's. -/
def Obligations.ExactlyTheListedConditionsFault : Prop :=
  ([Cause.none, .stackOverflow, .stackUnderflow, .memFetch, .memData].map Cause.code = [0#3, 1#3, 2#3, 3#3, 4#3]) ∧
  (∀ (i : Instr) (s : State) (c : Cause) (a : Nat), faultOf i s = some (c, a) →
    exec i s = .next (faultTaken c a s)) ∧
  (∀ (i : Instr) (s : State), faultOf i s = none → ∃ t, exec i s = .next t ∧ t.fault = s.fault) ∧
  (∀ s : State, s.fault.halted = false → 0xFFE < s.pc.toNat → ∃ t, stepCycle s = .next t ∧
    t.fault = { halted := true, cause := .memFetch, fpc := s.pc, fop := 0#16,
                faddr := BitVec.ofNat 17 (s.pc.toNat + 1) }) ∧
  (∀ s t : State, s.fault.halted = false → s.pc.toNat ≤ 0xFFE → stepCycle s = .next t →
    (t.fault.halted = true → t.fault.cause ≠ .memFetch) ∧
    t.fault = match faultOf (decodeWord (fetchedWord s)) (preAdvanced s) with
      | some (c, a) => { halted := true, cause := c, fpc := s.pc, fop := fetchedWord s, faddr := BitVec.ofNat 17 a }
      | none => s.fault)

/-- R234: a Step that faults changes nothing except the fault record, in which fpc is the pc at its start. (`loadOpen`,
the model's own, is left out of the comparison; log entry 9. The latch is kept: the model's reading, log entry 4.) -/
def Obligations.FaultsArePreciseAndAtomic : Prop :=
  ∀ s t : State, s.fault.halted = false → stepCycle s = .next t → t.fault.halted = true →
    { t with fault := s.fault, loadOpen := s.loadOpen } = s ∧ t.fault.fpc = s.pc

/-- R235: halted, a Step changes nothing; Tick, SetKey and ReadFramebuffer still work; no event other than Reset changes
the record. -/
def Obligations.HaltedUntilReset : Prop :=
  ∀ s : State, s.fault.halted = true →
    applyEvent .step s = .next s ∧ applyEvent .readFramebuffer s = .next s ∧
    (∃ t, applyEvent .tick s = .next t ∧ t.DT.toNat = s.DT.toNat - 1 ∧ t.ST.toNat = s.ST.toNat - 1) ∧
    (∀ k p, ∃ t, applyEvent (.setKey k p) s = .next t ∧ t.keyDown k = p) ∧
    ∀ e t, (∀ seed, e ≠ .reset seed) → applyEvent e s = .next t → t.fault = s.fault

/-! ## Rules about all instructions -/

/-- R24: what each instruction leaves in pc, from the pre-advanced pc. -/
def Obligations.PcAfterEachInstruction : Prop :=
  ∀ (i : Instr) (s t : State), exec i s = .next t →
    (faultOf i s ≠ none → t.pc = s.pc - 2#16) ∧
    (faultOf i s = none →
      match i with
      | .jp nnn => t.pc.toNat = nnn.toNat
      | .call nnn => t.pc.toNat = nnn.toNat
      | .jpV0 nnn => t.pc.toNat = nnn.toNat + (s.getV 0x0#4).toNat
      | .ret => ∀ k : Fin 16, k.val = s.sp.val - 1 → t.pc = s.stack[k]
      | .seVxKk x kk => t.pc = if s.getV x = kk then s.pc + 2#16 else s.pc
      | .sneVxKk x kk => t.pc = if s.getV x = kk then s.pc else s.pc + 2#16
      | .seVxVy x y => t.pc = if s.getV x = s.getV y then s.pc + 2#16 else s.pc
      | .sneVxVy x y => t.pc = if s.getV x = s.getV y then s.pc else s.pc + 2#16
      | .skpVx x => ∀ k : Nibble, k.toNat = (s.getV x).toNat % 16 →
          t.pc = if s.keyDown k = true then s.pc + 2#16 else s.pc
      | .sknpVx x => ∀ k : Nibble, k.toNat = (s.getV x).toNat % 16 →
          t.pc = if s.keyDown k = true then s.pc else s.pc + 2#16
      | .ldVxK _ => ((∃ k, s.keyDown k = true) → t.pc = s.pc) ∧ ((∀ k, s.keyDown k = false) → t.pc = s.pc - 2#16)
      | _ => t.pc = s.pc)

/-- R20, R21: a register changes only as the destination of an instruction, or as VF in the six that set a flag. -/
def Obligations.RegistersChangeOnlyAsNamed : Prop :=
  ∀ (i : Instr) (s t : State) (j : Nibble), exec i s = .next t → t.getV j ≠ s.getV j →
    match i with
    | .ldVxKk x _ => j = x
    | .addVxKk x _ => j = x
    | .ldVxVy x _ => j = x
    | .orVxVy x _ => j = x
    | .andVxVy x _ => j = x
    | .xorVxVy x _ => j = x
    | .addVxVy x _ => j = x ∨ j = 0xF#4
    | .subVxVy x _ => j = x ∨ j = 0xF#4
    | .shrVx x => j = x ∨ j = 0xF#4
    | .subnVxVy x _ => j = x ∨ j = 0xF#4
    | .shlVx x => j = x ∨ j = 0xF#4
    | .drwVxVyN _ _ _ => j = 0xF#4
    | .rndVxKk x _ => j = x
    | .ldVxDt x => j = x
    | .ldVxK x => j = x
    | .ldVxMem x => j.toNat ≤ x.toNat
    | _ => False

/-- R26 to R31, R40, R41, R67: which instructions can change I, the stack, sp, the timers, the keys, the framebuffer,
memory and the random source; none changes the latch, FONT (log entry 2) or what is scheduled (log entry 8). -/
def Obligations.OtherStateChangesOnlyAsNamed : Prop :=
  ∀ (i : Instr) (s t : State), exec i s = .next t →
    (t.I ≠ s.I → (∃ nnn, i = .ldIAddr nnn) ∨ (∃ x, i = .addIVx x) ∨ ∃ x, i = .ldFVx x) ∧
    (t.stack ≠ s.stack → ∃ nnn, i = .call nnn) ∧
    (t.sp ≠ s.sp → (∃ nnn, i = .call nnn) ∨ i = .ret) ∧
    (t.DT ≠ s.DT → ∃ x, i = .ldDtVx x) ∧
    (t.ST ≠ s.ST → ∃ x, i = .ldStVx x) ∧
    t.key = s.key ∧
    (t.video ≠ s.video → i = .cls ∨ ∃ x y n, i = .drwVxVyN x y n) ∧
    (t.memory ≠ s.memory → (∃ x, i = .ldBVx x) ∨ ∃ x, i = .ldMemVx x) ∧
    (t.rng ≠ s.rng → ∃ x kk, i = .rndVxKk x kk) ∧
    t.opcode = s.opcode ∧ t.font = s.font ∧ t.schedule = s.schedule

/-- R219: a Step changes DT only by LD DT, Vx and ST only by LD ST, Vx, to the register's value. -/
def Obligations.StepsDoNotCountTimers : Prop :=
  ∀ s t : State, stepCycle s = .next t →
    (t.DT ≠ s.DT → ∃ x, decodeWord (fetchedWord s) = .ldDtVx x ∧ t.DT = s.getV x) ∧
    (t.ST ≠ s.ST → ∃ x, decodeWord (fetchedWord s) = .ldStVx x ∧ t.ST = s.getV x)

/-- R29: no instruction reads ST: with another ST an instruction does the same, and leaves that ST unless it writes it. -/
def Obligations.NoInstructionReadsTheSoundTimer : Prop :=
  ∀ (i : Instr) (s t : State) (v : Byte), exec i s = .next t →
    exec i { s with ST := v } = .next (match i with | .ldStVx _ => t | _ => { t with ST := v })

/-- R41: a program observes the random source only through the bytes RND returns: any other instruction does the same
whatever has been drawn. A seed and a count of draws are the model's way to hold the source (log entry 6). -/
def Obligations.OnlyRndObservesTheRandomSource : Prop :=
  ∀ (i : Instr) (s t : State) (n : RngState), (∀ x kk, i ≠ .rndVxKk x kk) → exec i s = .next t →
    exec i { s with rng := n } = .next { t with rng := n }

/-! ## Invariants of every step -/

/-- Memory's canonical form holds at reset (log entry 13). -/
def Obligations.ResetMemoryIsCanonical : Prop := State.reset.memory.wf = true

/-- Every step keeps memory's canonical form, whatever event it is (log entry 13). -/
def Obligations.EveryStepKeepsMemoryCanonical : Prop :=
  ∀ s t : State, s.memory.wf = true → step s = .next t → t.memory.wf = true

/-- Two canonical memories that read alike are the same list (log entry 13). -/
def Obligations.CanonicalMemoriesReadingAlikeAreEqual : Prop :=
  ∀ m m' : Memory, m.wf = true → m'.wf = true → (∀ a, m.read a = m'.read a) → m = m'

/-- The bounds of R25 and R44 hold at reset. -/
def Obligations.ResetBoundsPcAndStack : Prop := PcAndStackBounded State.reset

/-- Every step keeps pc at most 0x10FE and every live stack entry at most 0x1000, whatever event it is (R25, R44). -/
def Obligations.EveryStepKeepsPcAndStackBounded : Prop :=
  ∀ s t : State, PcAndStackBounded s → step s = .next t → PcAndStackBounded t

/-- The record is truthful at reset. -/
def Obligations.ResetFaultRecordIsTruthful : Prop := FaultRecordTruthful State.reset

/-- Every step keeps the fault record truthful, whatever event it is (R231). -/
def Obligations.EveryStepKeepsTheFaultRecordTruthful : Prop :=
  ∀ s t : State, FaultRecordTruthful s → step s = .next t → FaultRecordTruthful t

/-! ## Runs -/

/-- R276: a Step at an address where memory holds 0x00 0x00 clears the framebuffer and moves on by 2. -/
def Obligations.ZeroedMemoryRunsAsClear : Prop :=
  ∀ s : State, s.fault.halted = false → s.pc.toNat ≤ 0xFFE →
    s.memory.read s.pc.toNat = 0x00#8 → s.memory.read (s.pc.toNat + 1) = 0x00#8 →
    ∃ t, stepCycle s = .next t ∧ (∀ p (h : p < 2048), t.video[p] = false) ∧ t.pc = s.pc + 2#16 ∧
      { t with video := s.video, pc := s.pc, opcode := s.opcode, loadOpen := s.loadOpen } = s

/-- R121, `JP A` at A, the end of a run as log entry 15 has it: with nothing scheduled the Step leaves every piece of the
spec's state but the latch as it is, and the run stays at its end. -/
def Obligations.EndOfRunIsStable : Prop :=
  ∀ s : State, s.schedule = [] → EndOfRun s = true →
    ∃ t, step s = .next t ∧ EndOfRun t = true ∧ { t with opcode := s.opcode, loadOpen := s.loadOpen } = s
end

