-- ==== Sys2Proof/Laws/Encoding.lean ====
section
/-! SUPPORT. Reading a field back from a word put together from its fields, and a word from its two bytes. -/

namespace Sys2Proof

theorem append4_toNat (a b : Nibble) : (a ++ b : BitVec (4 + 4)).toNat = a.toNat * 16 + b.toNat := by
  rw [BitVec.toNat_append, ← Nat.shiftLeft_add_eq_or_of_lt b.isLt, Nat.shiftLeft_eq]

theorem packA_toNat (f : Nibble) (a : Addr) : (packA f a).toNat = f.toNat * 4096 + a.toNat := by
  unfold packA
  rw [BitVec.toNat_append, ← Nat.shiftLeft_add_eq_or_of_lt a.isLt, Nat.shiftLeft_eq]

theorem packXK_toNat (f x : Nibble) (k : Byte) : (packXK f x k).toNat = f.toNat * 4096 + x.toNat * 256 + k.toNat := by
  unfold packXK
  rw [BitVec.toNat_append, ← Nat.shiftLeft_add_eq_or_of_lt k.isLt, Nat.shiftLeft_eq, append4_toNat]
  omega

theorem packXYN_toNat (f x y n : Nibble) :
    (packXYN f x y n).toNat = f.toNat * 4096 + x.toNat * 256 + y.toNat * 16 + n.toNat := by
  unfold packXYN
  rw [BitVec.toNat_append, ← Nat.shiftLeft_add_eq_or_of_lt n.isLt, Nat.shiftLeft_eq, BitVec.toNat_append,
    ← Nat.shiftLeft_add_eq_or_of_lt y.isLt, Nat.shiftLeft_eq, append4_toNat]
  omega

theorem wordOfBytes_toNat (hi lo : Byte) : (wordOfBytes hi lo).toNat = hi.toNat * 256 + lo.toNat := by
  unfold wordOfBytes
  rw [BitVec.toNat_append, ← Nat.shiftLeft_add_eq_or_of_lt lo.isLt, Nat.shiftLeft_eq]

theorem field_toNat (w : Word) (start len : Nat) :
    (w.extractLsb' start len).toNat = w.toNat / 2 ^ start % 2 ^ len := by
  rw [BitVec.extractLsb'_toNat, Nat.shiftRight_eq_div_pow]

variable (f x y n : Nibble) (k : Byte) (a : Addr)

@[simp] theorem fieldFamily_packA : fieldFamily (packA f a) = f := by
  apply BitVec.eq_of_toNat_eq; rw [fieldFamily, field_toNat, packA_toNat]; have := f.isLt; have := a.isLt; omega
@[simp] theorem fieldNNN_packA : fieldNNN (packA f a) = a := by
  apply BitVec.eq_of_toNat_eq; rw [fieldNNN, field_toNat, packA_toNat]; have := f.isLt; have := a.isLt; omega
@[simp] theorem fieldFamily_packXK : fieldFamily (packXK f x k) = f := by
  apply BitVec.eq_of_toNat_eq; rw [fieldFamily, field_toNat, packXK_toNat]
  have := f.isLt; have := x.isLt; have := k.isLt; omega
@[simp] theorem fieldX_packXK : fieldX (packXK f x k) = x := by
  apply BitVec.eq_of_toNat_eq; rw [fieldX, field_toNat, packXK_toNat]
  have := f.isLt; have := x.isLt; have := k.isLt; omega
@[simp] theorem fieldKK_packXK : fieldKK (packXK f x k) = k := by
  apply BitVec.eq_of_toNat_eq; rw [fieldKK, field_toNat, packXK_toNat]
  have := f.isLt; have := x.isLt; have := k.isLt; omega
@[simp] theorem fieldFamily_packXYN : fieldFamily (packXYN f x y n) = f := by
  apply BitVec.eq_of_toNat_eq; rw [fieldFamily, field_toNat, packXYN_toNat]
  have := f.isLt; have := x.isLt; have := y.isLt; have := n.isLt; omega
@[simp] theorem fieldX_packXYN : fieldX (packXYN f x y n) = x := by
  apply BitVec.eq_of_toNat_eq; rw [fieldX, field_toNat, packXYN_toNat]
  have := f.isLt; have := x.isLt; have := y.isLt; have := n.isLt; omega
@[simp] theorem fieldY_packXYN : fieldY (packXYN f x y n) = y := by
  apply BitVec.eq_of_toNat_eq; rw [fieldY, field_toNat, packXYN_toNat]
  have := f.isLt; have := x.isLt; have := y.isLt; have := n.isLt; omega
@[simp] theorem fieldN_packXYN : fieldN (packXYN f x y n) = n := by
  apply BitVec.eq_of_toNat_eq; rw [fieldN, field_toNat, packXYN_toNat]
  have := f.isLt; have := x.isLt; have := y.isLt; have := n.isLt; omega

/-- The two bytes of a word spell it (R64). -/
@[simp] theorem wordOfBytes_high_low (w : Word) : wordOfBytes (highByte w) (lowByte w) = w := by
  apply BitVec.eq_of_toNat_eq
  rw [wordOfBytes_toNat, highByte, lowByte, field_toNat, field_toNat]
  have := w.isLt
  omega

end Sys2Proof
end

