-- ==== Sys2Proof/Laws/State.lean ====
section
/-! SUPPORT. One lemma per field per update of State, true by rfl, so that no later proof unfolds a record update. -/

namespace Sys2Proof.Machine

variable (s : State)

/-! `State.setV` writes V only (R20). -/

@[simp] theorem setV_I (x : Nibble) (v : Byte) : (s.setV x v).I = s.I := rfl
@[simp] theorem setV_pc (x : Nibble) (v : Byte) : (s.setV x v).pc = s.pc := rfl
@[simp] theorem setV_stack (x : Nibble) (v : Byte) : (s.setV x v).stack = s.stack := rfl
@[simp] theorem setV_sp (x : Nibble) (v : Byte) : (s.setV x v).sp = s.sp := rfl
@[simp] theorem setV_DT (x : Nibble) (v : Byte) : (s.setV x v).DT = s.DT := rfl
@[simp] theorem setV_ST (x : Nibble) (v : Byte) : (s.setV x v).ST = s.ST := rfl
@[simp] theorem setV_key (x : Nibble) (v : Byte) : (s.setV x v).key = s.key := rfl
@[simp] theorem setV_video (x : Nibble) (v : Byte) : (s.setV x v).video = s.video := rfl
@[simp] theorem setV_memory (x : Nibble) (v : Byte) : (s.setV x v).memory = s.memory := rfl
@[simp] theorem setV_opcode (x : Nibble) (v : Byte) : (s.setV x v).opcode = s.opcode := rfl
@[simp] theorem setV_rng (x : Nibble) (v : Byte) : (s.setV x v).rng = s.rng := rfl
@[simp] theorem setV_fault (x : Nibble) (v : Byte) : (s.setV x v).fault = s.fault := rfl
@[simp] theorem setV_font (x : Nibble) (v : Byte) : (s.setV x v).font = s.font := rfl
@[simp] theorem setV_schedule (x : Nibble) (v : Byte) : (s.setV x v).schedule = s.schedule := rfl
@[simp] theorem setV_loadOpen (x : Nibble) (v : Byte) : (s.setV x v).loadOpen = s.loadOpen := rfl

/-! `State.setResultFlag` writes V only (R22). -/

@[simp] theorem setResultFlag_I (x : Nibble) (r f : Byte) : (s.setResultFlag x r f).I = s.I := rfl
@[simp] theorem setResultFlag_pc (x : Nibble) (r f : Byte) : (s.setResultFlag x r f).pc = s.pc := rfl
@[simp] theorem setResultFlag_stack (x : Nibble) (r f : Byte) : (s.setResultFlag x r f).stack = s.stack := rfl
@[simp] theorem setResultFlag_sp (x : Nibble) (r f : Byte) : (s.setResultFlag x r f).sp = s.sp := rfl
@[simp] theorem setResultFlag_DT (x : Nibble) (r f : Byte) : (s.setResultFlag x r f).DT = s.DT := rfl
@[simp] theorem setResultFlag_ST (x : Nibble) (r f : Byte) : (s.setResultFlag x r f).ST = s.ST := rfl
@[simp] theorem setResultFlag_key (x : Nibble) (r f : Byte) : (s.setResultFlag x r f).key = s.key := rfl
@[simp] theorem setResultFlag_video (x : Nibble) (r f : Byte) : (s.setResultFlag x r f).video = s.video := rfl
@[simp] theorem setResultFlag_memory (x : Nibble) (r f : Byte) : (s.setResultFlag x r f).memory = s.memory := rfl
@[simp] theorem setResultFlag_opcode (x : Nibble) (r f : Byte) : (s.setResultFlag x r f).opcode = s.opcode := rfl
@[simp] theorem setResultFlag_rng (x : Nibble) (r f : Byte) : (s.setResultFlag x r f).rng = s.rng := rfl
@[simp] theorem setResultFlag_fault (x : Nibble) (r f : Byte) : (s.setResultFlag x r f).fault = s.fault := rfl
@[simp] theorem setResultFlag_font (x : Nibble) (r f : Byte) : (s.setResultFlag x r f).font = s.font := rfl
@[simp] theorem setResultFlag_schedule (x : Nibble) (r f : Byte) : (s.setResultFlag x r f).schedule = s.schedule := rfl
@[simp] theorem setResultFlag_loadOpen (x : Nibble) (r f : Byte) : (s.setResultFlag x r f).loadOpen = s.loadOpen := rfl

/-! `State.advanceRng` writes rng only (R217). -/

@[simp] theorem advanceRng_V : (s.advanceRng).V = s.V := rfl
@[simp] theorem advanceRng_I : (s.advanceRng).I = s.I := rfl
@[simp] theorem advanceRng_pc : (s.advanceRng).pc = s.pc := rfl
@[simp] theorem advanceRng_stack : (s.advanceRng).stack = s.stack := rfl
@[simp] theorem advanceRng_sp : (s.advanceRng).sp = s.sp := rfl
@[simp] theorem advanceRng_DT : (s.advanceRng).DT = s.DT := rfl
@[simp] theorem advanceRng_ST : (s.advanceRng).ST = s.ST := rfl
@[simp] theorem advanceRng_key : (s.advanceRng).key = s.key := rfl
@[simp] theorem advanceRng_video : (s.advanceRng).video = s.video := rfl
@[simp] theorem advanceRng_memory : (s.advanceRng).memory = s.memory := rfl
@[simp] theorem advanceRng_opcode : (s.advanceRng).opcode = s.opcode := rfl
@[simp] theorem advanceRng_fault : (s.advanceRng).fault = s.fault := rfl
@[simp] theorem advanceRng_font : (s.advanceRng).font = s.font := rfl
@[simp] theorem advanceRng_schedule : (s.advanceRng).schedule = s.schedule := rfl
@[simp] theorem advanceRng_loadOpen : (s.advanceRng).loadOpen = s.loadOpen := rfl

/-! `takeFault` writes the record and leaves pc at the instruction (R234). -/

@[simp] theorem takeFault_V (c : Cause) (fpc fop : Word) (a : Nat) : (takeFault c fpc fop a s).V = s.V := rfl
@[simp] theorem takeFault_I (c : Cause) (fpc fop : Word) (a : Nat) : (takeFault c fpc fop a s).I = s.I := rfl
@[simp] theorem takeFault_stack (c : Cause) (fpc fop : Word) (a : Nat) : (takeFault c fpc fop a s).stack = s.stack := rfl
@[simp] theorem takeFault_sp (c : Cause) (fpc fop : Word) (a : Nat) : (takeFault c fpc fop a s).sp = s.sp := rfl
@[simp] theorem takeFault_DT (c : Cause) (fpc fop : Word) (a : Nat) : (takeFault c fpc fop a s).DT = s.DT := rfl
@[simp] theorem takeFault_ST (c : Cause) (fpc fop : Word) (a : Nat) : (takeFault c fpc fop a s).ST = s.ST := rfl
@[simp] theorem takeFault_key (c : Cause) (fpc fop : Word) (a : Nat) : (takeFault c fpc fop a s).key = s.key := rfl
@[simp] theorem takeFault_video (c : Cause) (fpc fop : Word) (a : Nat) : (takeFault c fpc fop a s).video = s.video := rfl
@[simp] theorem takeFault_memory (c : Cause) (fpc fop : Word) (a : Nat) : (takeFault c fpc fop a s).memory = s.memory := rfl
@[simp] theorem takeFault_opcode (c : Cause) (fpc fop : Word) (a : Nat) : (takeFault c fpc fop a s).opcode = s.opcode := rfl
@[simp] theorem takeFault_rng (c : Cause) (fpc fop : Word) (a : Nat) : (takeFault c fpc fop a s).rng = s.rng := rfl
@[simp] theorem takeFault_font (c : Cause) (fpc fop : Word) (a : Nat) : (takeFault c fpc fop a s).font = s.font := rfl
@[simp] theorem takeFault_schedule (c : Cause) (fpc fop : Word) (a : Nat) : (takeFault c fpc fop a s).schedule = s.schedule := rfl
@[simp] theorem takeFault_loadOpen (c : Cause) (fpc fop : Word) (a : Nat) : (takeFault c fpc fop a s).loadOpen = s.loadOpen := rfl

/-! `tick` writes the timers only (R240). -/

@[simp] theorem tick_V : (tick s).V = s.V := rfl
@[simp] theorem tick_I : (tick s).I = s.I := rfl
@[simp] theorem tick_pc : (tick s).pc = s.pc := rfl
@[simp] theorem tick_stack : (tick s).stack = s.stack := rfl
@[simp] theorem tick_sp : (tick s).sp = s.sp := rfl
@[simp] theorem tick_key : (tick s).key = s.key := rfl
@[simp] theorem tick_video : (tick s).video = s.video := rfl
@[simp] theorem tick_memory : (tick s).memory = s.memory := rfl
@[simp] theorem tick_opcode : (tick s).opcode = s.opcode := rfl
@[simp] theorem tick_rng : (tick s).rng = s.rng := rfl
@[simp] theorem tick_fault : (tick s).fault = s.fault := rfl
@[simp] theorem tick_font : (tick s).font = s.font := rfl
@[simp] theorem tick_schedule : (tick s).schedule = s.schedule := rfl
@[simp] theorem tick_loadOpen : (tick s).loadOpen = s.loadOpen := rfl

/-! `setKey` writes one key only (R242). -/

@[simp] theorem setKey_V (k : Nibble) (p : Bool) : (setKey k p s).V = s.V := rfl
@[simp] theorem setKey_I (k : Nibble) (p : Bool) : (setKey k p s).I = s.I := rfl
@[simp] theorem setKey_pc (k : Nibble) (p : Bool) : (setKey k p s).pc = s.pc := rfl
@[simp] theorem setKey_stack (k : Nibble) (p : Bool) : (setKey k p s).stack = s.stack := rfl
@[simp] theorem setKey_sp (k : Nibble) (p : Bool) : (setKey k p s).sp = s.sp := rfl
@[simp] theorem setKey_DT (k : Nibble) (p : Bool) : (setKey k p s).DT = s.DT := rfl
@[simp] theorem setKey_ST (k : Nibble) (p : Bool) : (setKey k p s).ST = s.ST := rfl
@[simp] theorem setKey_video (k : Nibble) (p : Bool) : (setKey k p s).video = s.video := rfl
@[simp] theorem setKey_memory (k : Nibble) (p : Bool) : (setKey k p s).memory = s.memory := rfl
@[simp] theorem setKey_opcode (k : Nibble) (p : Bool) : (setKey k p s).opcode = s.opcode := rfl
@[simp] theorem setKey_rng (k : Nibble) (p : Bool) : (setKey k p s).rng = s.rng := rfl
@[simp] theorem setKey_fault (k : Nibble) (p : Bool) : (setKey k p s).fault = s.fault := rfl
@[simp] theorem setKey_font (k : Nibble) (p : Bool) : (setKey k p s).font = s.font := rfl
@[simp] theorem setKey_schedule (k : Nibble) (p : Bool) : (setKey k p s).schedule = s.schedule := rfl
@[simp] theorem setKey_loadOpen (k : Nibble) (p : Bool) : (setKey k p s).loadOpen = s.loadOpen := rfl

/-! `preAdvanced` writes the latch and pc (R91). -/

@[simp] theorem preAdvanced_V : (preAdvanced s).V = s.V := rfl
@[simp] theorem preAdvanced_I : (preAdvanced s).I = s.I := rfl
@[simp] theorem preAdvanced_stack : (preAdvanced s).stack = s.stack := rfl
@[simp] theorem preAdvanced_sp : (preAdvanced s).sp = s.sp := rfl
@[simp] theorem preAdvanced_DT : (preAdvanced s).DT = s.DT := rfl
@[simp] theorem preAdvanced_ST : (preAdvanced s).ST = s.ST := rfl
@[simp] theorem preAdvanced_key : (preAdvanced s).key = s.key := rfl
@[simp] theorem preAdvanced_video : (preAdvanced s).video = s.video := rfl
@[simp] theorem preAdvanced_memory : (preAdvanced s).memory = s.memory := rfl
@[simp] theorem preAdvanced_rng : (preAdvanced s).rng = s.rng := rfl
@[simp] theorem preAdvanced_fault : (preAdvanced s).fault = s.fault := rfl
@[simp] theorem preAdvanced_font : (preAdvanced s).font = s.font := rfl
@[simp] theorem preAdvanced_schedule : (preAdvanced s).schedule = s.schedule := rfl

/-! `faultedStep` keeps the record only (R234). -/

@[simp] theorem faultedStep_V (f : FaultRecord) : (faultedStep s f).V = s.V := rfl
@[simp] theorem faultedStep_I (f : FaultRecord) : (faultedStep s f).I = s.I := rfl
@[simp] theorem faultedStep_pc (f : FaultRecord) : (faultedStep s f).pc = s.pc := rfl
@[simp] theorem faultedStep_stack (f : FaultRecord) : (faultedStep s f).stack = s.stack := rfl
@[simp] theorem faultedStep_sp (f : FaultRecord) : (faultedStep s f).sp = s.sp := rfl
@[simp] theorem faultedStep_DT (f : FaultRecord) : (faultedStep s f).DT = s.DT := rfl
@[simp] theorem faultedStep_ST (f : FaultRecord) : (faultedStep s f).ST = s.ST := rfl
@[simp] theorem faultedStep_key (f : FaultRecord) : (faultedStep s f).key = s.key := rfl
@[simp] theorem faultedStep_video (f : FaultRecord) : (faultedStep s f).video = s.video := rfl
@[simp] theorem faultedStep_memory (f : FaultRecord) : (faultedStep s f).memory = s.memory := rfl
@[simp] theorem faultedStep_opcode (f : FaultRecord) : (faultedStep s f).opcode = s.opcode := rfl
@[simp] theorem faultedStep_rng (f : FaultRecord) : (faultedStep s f).rng = s.rng := rfl
@[simp] theorem faultedStep_font (f : FaultRecord) : (faultedStep s f).font = s.font := rfl
@[simp] theorem faultedStep_schedule (f : FaultRecord) : (faultedStep s f).schedule = s.schedule := rfl

/-! `resetEvent` keeps the machine's FONT and the host's schedule, and seeds the random source (R45). -/

@[simp] theorem resetEvent_rng (seed : Nat) : (resetEvent seed s).rng = RngState.seeded seed := rfl
@[simp] theorem resetEvent_font (seed : Nat) : (resetEvent seed s).font = s.font := rfl
@[simp] theorem resetEvent_schedule (seed : Nat) : (resetEvent seed s).schedule = s.schedule := rfl

/-! `drawSprite` writes V and video (R192). -/

@[simp] theorem drawSprite_I (x y n : Nibble) : (drawSprite x y n s).I = s.I := rfl
@[simp] theorem drawSprite_pc (x y n : Nibble) : (drawSprite x y n s).pc = s.pc := rfl
@[simp] theorem drawSprite_stack (x y n : Nibble) : (drawSprite x y n s).stack = s.stack := rfl
@[simp] theorem drawSprite_sp (x y n : Nibble) : (drawSprite x y n s).sp = s.sp := rfl
@[simp] theorem drawSprite_DT (x y n : Nibble) : (drawSprite x y n s).DT = s.DT := rfl
@[simp] theorem drawSprite_ST (x y n : Nibble) : (drawSprite x y n s).ST = s.ST := rfl
@[simp] theorem drawSprite_key (x y n : Nibble) : (drawSprite x y n s).key = s.key := rfl
@[simp] theorem drawSprite_memory (x y n : Nibble) : (drawSprite x y n s).memory = s.memory := rfl
@[simp] theorem drawSprite_opcode (x y n : Nibble) : (drawSprite x y n s).opcode = s.opcode := rfl
@[simp] theorem drawSprite_rng (x y n : Nibble) : (drawSprite x y n s).rng = s.rng := rfl
@[simp] theorem drawSprite_fault (x y n : Nibble) : (drawSprite x y n s).fault = s.fault := rfl
@[simp] theorem drawSprite_font (x y n : Nibble) : (drawSprite x y n s).font = s.font := rfl
@[simp] theorem drawSprite_schedule (x y n : Nibble) : (drawSprite x y n s).schedule = s.schedule := rfl
@[simp] theorem drawSprite_loadOpen (x y n : Nibble) : (drawSprite x y n s).loadOpen = s.loadOpen := rfl

/-! The fields an update writes. -/

@[simp] theorem setV_V (x : Nibble) (v : Byte) :
    (s.setV x v).V = s.V.set x.toNat v (by have := x.isLt; omega) := rfl
@[simp] theorem advanceRng_rng : s.advanceRng.rng = { s.rng with drawn := s.rng.drawn + 1 } := rfl
@[simp] theorem takeFault_pc (c : Cause) (fpc fop : Word) (a : Nat) : (takeFault c fpc fop a s).pc = fpc := rfl
@[simp] theorem takeFault_fault (c : Cause) (fpc fop : Word) (a : Nat) :
    (takeFault c fpc fop a s).fault = ⟨true, c, fpc, fop, BitVec.ofNat 17 a⟩ := rfl
@[simp] theorem tick_DT : (tick s).DT = countDown s.DT := rfl
@[simp] theorem tick_ST : (tick s).ST = countDown s.ST := rfl
@[simp] theorem preAdvanced_opcode : (preAdvanced s).opcode = fetchedWord s := rfl
@[simp] theorem preAdvanced_pc : (preAdvanced s).pc = s.pc + 2#16 := rfl
@[simp] theorem preAdvanced_loadOpen : (preAdvanced s).loadOpen = false := rfl
@[simp] theorem faultedStep_fault (f : FaultRecord) : (faultedStep s f).fault = f := rfl
@[simp] theorem faultedStep_loadOpen (f : FaultRecord) : (faultedStep s f).loadOpen = false := rfl
@[simp] theorem raiseFetch_fault :
    (raiseFetch s).fault = ⟨true, .memFetch, s.pc, 0#16, BitVec.ofNat 17 (s.pc.toNat + 1)⟩ := rfl
@[simp] theorem drawSprite_video (x y n : Nibble) : (drawSprite x y n s).video = (drawnCanvas x y n s).1 := rfl

/-! `skipIf` writes pc only (R129). -/

@[simp] theorem skipIf_V (c : Bool) : (skipIf c s).V = s.V := by unfold skipIf; split <;> rfl
@[simp] theorem skipIf_I (c : Bool) : (skipIf c s).I = s.I := by unfold skipIf; split <;> rfl
@[simp] theorem skipIf_stack (c : Bool) : (skipIf c s).stack = s.stack := by unfold skipIf; split <;> rfl
@[simp] theorem skipIf_sp (c : Bool) : (skipIf c s).sp = s.sp := by unfold skipIf; split <;> rfl
@[simp] theorem skipIf_DT (c : Bool) : (skipIf c s).DT = s.DT := by unfold skipIf; split <;> rfl
@[simp] theorem skipIf_ST (c : Bool) : (skipIf c s).ST = s.ST := by unfold skipIf; split <;> rfl
@[simp] theorem skipIf_key (c : Bool) : (skipIf c s).key = s.key := by unfold skipIf; split <;> rfl
@[simp] theorem skipIf_video (c : Bool) : (skipIf c s).video = s.video := by unfold skipIf; split <;> rfl
@[simp] theorem skipIf_memory (c : Bool) : (skipIf c s).memory = s.memory := by unfold skipIf; split <;> rfl
@[simp] theorem skipIf_opcode (c : Bool) : (skipIf c s).opcode = s.opcode := by unfold skipIf; split <;> rfl
@[simp] theorem skipIf_rng (c : Bool) : (skipIf c s).rng = s.rng := by unfold skipIf; split <;> rfl
@[simp] theorem skipIf_fault (c : Bool) : (skipIf c s).fault = s.fault := by unfold skipIf; split <;> rfl
@[simp] theorem skipIf_font (c : Bool) : (skipIf c s).font = s.font := by unfold skipIf; split <;> rfl
@[simp] theorem skipIf_schedule (c : Bool) : (skipIf c s).schedule = s.schedule := by unfold skipIf; split <;> rfl
@[simp] theorem skipIf_loadOpen (c : Bool) : (skipIf c s).loadOpen = s.loadOpen := by unfold skipIf; split <;> rfl
@[simp] theorem skipIf_pc (c : Bool) : (skipIf c s).pc = if c then s.pc + 2#16 else s.pc := by
  unfold skipIf; split <;> rfl

/-! What Reset leaves (R45). -/

@[simp] theorem reset_V : State.reset.V = Vector.replicate 16 0#8 := rfl
@[simp] theorem reset_I : State.reset.I = 0#16 := rfl
@[simp] theorem reset_pc : State.reset.pc = 0x0200#16 := rfl
@[simp] theorem reset_stack : State.reset.stack = Vector.replicate 16 0#16 := rfl
@[simp] theorem reset_sp : State.reset.sp = 0 := rfl
@[simp] theorem reset_DT : State.reset.DT = 0#8 := rfl
@[simp] theorem reset_ST : State.reset.ST = 0#8 := rfl
@[simp] theorem reset_key : State.reset.key = Vector.replicate 16 false := rfl
@[simp] theorem reset_video : State.reset.video = Vector.replicate 2048 false := rfl
@[simp] theorem reset_memory : State.reset.memory = [] := rfl
@[simp] theorem reset_opcode : State.reset.opcode = 0#16 := rfl
@[simp] theorem reset_fault : State.reset.fault = FaultRecord.clear := rfl
@[simp] theorem reset_font : State.reset.font = defaultFont := rfl
@[simp] theorem reset_rng : State.reset.rng = RngState.seeded 0 := rfl

/-! What Reset leaves beside that for another FONT and another RNG_SEED (R45). -/

@[simp] theorem resetWith_memory (font : FontTable) (seed : Nat) :
    (State.resetWith font seed).memory = Memory.writeBytes [] Config.fontBase font.toList := rfl
@[simp] theorem resetWith_rng (font : FontTable) (seed : Nat) :
    (State.resetWith font seed).rng = RngState.seeded seed := rfl
@[simp] theorem resetWith_font (font : FontTable) (seed : Nat) : (State.resetWith font seed).font = font := rfl
@[simp] theorem resetWith_fault (font : FontTable) (seed : Nat) :
    (State.resetWith font seed).fault = FaultRecord.clear := rfl

/-! `load` writes memory and the model's `loadOpen` only (R272). -/

@[simp] theorem load_V (b : List Byte) : (load b s).V = s.V := rfl
@[simp] theorem load_I (b : List Byte) : (load b s).I = s.I := rfl
@[simp] theorem load_pc (b : List Byte) : (load b s).pc = s.pc := rfl
@[simp] theorem load_stack (b : List Byte) : (load b s).stack = s.stack := rfl
@[simp] theorem load_sp (b : List Byte) : (load b s).sp = s.sp := rfl
@[simp] theorem load_DT (b : List Byte) : (load b s).DT = s.DT := rfl
@[simp] theorem load_ST (b : List Byte) : (load b s).ST = s.ST := rfl
@[simp] theorem load_key (b : List Byte) : (load b s).key = s.key := rfl
@[simp] theorem load_video (b : List Byte) : (load b s).video = s.video := rfl
@[simp] theorem load_opcode (b : List Byte) : (load b s).opcode = s.opcode := rfl
@[simp] theorem load_rng (b : List Byte) : (load b s).rng = s.rng := rfl
@[simp] theorem load_fault (b : List Byte) : (load b s).fault = s.fault := rfl
@[simp] theorem load_font (b : List Byte) : (load b s).font = s.font := rfl
@[simp] theorem load_schedule (b : List Byte) : (load b s).schedule = s.schedule := rfl
@[simp] theorem load_loadOpen (b : List Byte) : (load b s).loadOpen = false := rfl

end Sys2Proof.Machine
end

