-- ==== Sys2Proof/Laws/Memory.lean ====
section
/-! SUPPORT. Memory: a read after a write, and the canonical form, which every memory operation keeps. -/

namespace Sys2Proof.Machine

theorem read_put (m : Memory) (a : Nat) (v : Byte) (h : m.Pairwise (fun c d => c.1 < d.1)) (b : Nat) :
    (m.put a v).read b = if b = a then v else m.read b := by
  induction m with
  | nil =>
    unfold Memory.put
    split
    · next hv => split <;> simp_all [Memory.read]
    · split <;> simp_all [Memory.read]
  | cons c rest ih =>
    obtain ⟨c, u⟩ := c
    have hr := List.pairwise_cons.mp h
    have unl : ∀ (l : Memory), (∀ d ∈ l, c < d.1) → ∀ x ≤ c, l.read x = unlistedByte x := by
      intro l
      induction l with
      | nil => intro _ x _; rfl
      | cons d l ihl =>
        intro hd x hx
        have := hd d (by simp)
        rw [Memory.read, if_neg (by omega)]
        exact ihl (fun e he => hd e (by simp [he])) x hx
    have unlRest := unl rest hr.1
    unfold Memory.put
    split
    · next hac =>
      split
      · next hv =>
        split
        · next hb =>
          subst hb
          rw [Memory.read, if_neg (by omega), unlRest _ (by omega), hv]
        · rfl
      · by_cases hb : b = a <;> simp [Memory.read, hb]
    · split
      · next hac =>
        subst hac
        split
        · next hv =>
          by_cases hb : b = a
          · rw [if_pos hb, hb, unlRest a (by omega), hv]
          · rw [if_neg hb, Memory.read, if_neg hb]
        · by_cases hb : b = a <;> simp [Memory.read, hb]
      · next h1 h2 =>
        rw [Memory.read, ih hr.2]
        by_cases hb : b = c
        · rw [if_pos hb, if_neg (by omega), Memory.read, if_pos hb]
        · rw [if_neg hb, Memory.read, if_neg hb]

/-- The canonical form spelled out: below 0x1000, strictly rising, nothing listed that reads so unlisted. -/
theorem wfFrom_cons (lo : Nat) (b : Nat) (u : Byte) (rest : Memory) :
    Memory.wfFrom lo ((b, u) :: rest) = true ↔
      lo ≤ b ∧ b < Config.memSize ∧ u ≠ unlistedByte b ∧ Memory.wfFrom (b + 1) rest = true := by
  simp [Memory.wfFrom, and_assoc]

theorem wfFrom_mono {lo lo' : Nat} (h : lo' ≤ lo) {m : Memory} (hm : Memory.wfFrom lo m = true) :
    Memory.wfFrom lo' m = true := by
  cases m with
  | nil => rfl
  | cons c rest =>
    obtain ⟨b, u⟩ := c
    rw [wfFrom_cons] at hm ⊢
    exact ⟨by omega, hm.2⟩

theorem wfFrom_pairwise {lo : Nat} {m : Memory} (hm : Memory.wfFrom lo m = true) :
    (∀ c ∈ m, lo ≤ c.1) ∧ m.Pairwise (fun c d => c.1 < d.1) := by
  induction m generalizing lo with
  | nil => simp
  | cons c rest ih =>
    obtain ⟨b, u⟩ := c
    rw [wfFrom_cons] at hm
    obtain ⟨h1, -, -, h4⟩ := hm
    obtain ⟨i1, i2⟩ := ih h4
    refine ⟨?_, List.pairwise_cons.mpr ⟨fun d hd => i1 d hd, i2⟩⟩
    intro d hd
    rcases List.mem_cons.mp hd with rfl | hd
    · exact h1
    · have := i1 d hd; omega

theorem wf_pairwise {m : Memory} (hm : m.wf = true) : m.Pairwise (fun c d => c.1 < d.1) :=
  (wfFrom_pairwise hm).2

theorem put_wfFrom {lo : Nat} {m : Memory} {a : Nat} (v : Byte) (ha : a < Config.memSize) (hlo : lo ≤ a)
    (hm : Memory.wfFrom lo m = true) : Memory.wfFrom lo (m.put a v) = true := by
  induction m generalizing lo with
  | nil =>
    unfold Memory.put
    split
    · rfl
    · next hv => rw [wfFrom_cons]; exact ⟨hlo, ha, hv, rfl⟩
  | cons c rest ih =>
    obtain ⟨b, u⟩ := c
    have hm' := hm
    rw [wfFrom_cons] at hm
    obtain ⟨h1, h2, h3, h4⟩ := hm
    unfold Memory.put
    split
    · split
      · exact hm'
      · next hv => rw [wfFrom_cons, wfFrom_cons]; exact ⟨hlo, ha, hv, by omega, h2, h3, h4⟩
    · split
      · next hab =>
        subst hab
        split
        · exact wfFrom_mono (by omega) h4
        · next hv => rw [wfFrom_cons]; exact ⟨hlo, ha, hv, h4⟩
      · rw [wfFrom_cons]; exact ⟨h1, h2, h3, ih (by omega) h4⟩

/-- A write keeps the canonical form. -/
theorem write_wf {m : Memory} (a : Nat) (v : Byte) (hm : m.wf = true) : (m.write a v).wf = true := by
  unfold Memory.write
  split
  · next ha => exact put_wfFrom v ha (Nat.zero_le a) hm
  · exact hm

/-- A run of writes keeps the canonical form. -/
theorem writeBytes_wf {m : Memory} (a : Nat) (bs : List Byte) (hm : m.wf = true) : (m.writeBytes a bs).wf = true := by
  induction bs generalizing m a with
  | nil => exact hm
  | cons b bs ih => exact ih (a + 1) (write_wf a b hm)

/-- A read after a write: the byte written at its address, every other byte as before. -/
theorem read_write {m : Memory} (hm : m.wf = true) {a : Nat} (ha : a < Config.memSize) (v : Byte) (b : Nat) :
    (m.write a v).read b = if b = a then v else m.read b := by
  rw [Memory.write, if_pos ha, read_put m a v (wf_pairwise hm)]

/-- A read after a run of writes inside memory. -/
theorem read_writeBytes {m : Memory} (hm : m.wf = true) {a : Nat} (bs : List Byte)
    (ha : a + bs.length ≤ Config.memSize) (b : Nat) :
    (m.writeBytes a bs).read b = if h : a ≤ b ∧ b < a + bs.length then bs[b - a] else m.read b := by
  induction bs generalizing m a with
  | nil => rw [dif_neg (by simp)]; rfl
  | cons v bs ih =>
    simp only [List.length_cons] at ha ⊢
    rw [Memory.writeBytes, ih (write_wf a v hm) (by omega), read_write hm (by omega)]
    by_cases h1 : a + 1 ≤ b ∧ b < a + 1 + bs.length
    · have h3 : b - a = (b - (a + 1)) + 1 := by omega
      rw [dif_pos h1, dif_pos (by omega)]
      simp [h3]
    · rw [dif_neg h1]
      by_cases h2 : b = a
      · subst h2; simp
      · rw [if_neg h2, dif_neg (by omega)]

@[simp] theorem readBytes_length (m : Memory) (a n : Nat) : (m.readBytes a n).length = n := by
  induction n generalizing a with
  | zero => rfl
  | succ n ih => simp [Memory.readBytes, ih]

@[simp] theorem readBytes_getElem (m : Memory) (a n k : Nat) (h : k < (m.readBytes a n).length) :
    (m.readBytes a n)[k] = m.read (a + k) := by
  induction n generalizing a k with
  | zero => simp at h
  | succ n ih =>
    cases k with
    | zero => rfl
    | succ k =>
      simp only [Memory.readBytes, List.getElem_cons_succ]
      rw [ih]
      congr 1
      omega

/-- Bytes written where they are what an unlisted address reads as leave the empty list. -/
theorem writeBytes_unlisted (l : List Byte) (k : Nat) (h : ∀ j (hj : j < l.length), l[j] = unlistedByte (k + j)) :
    Memory.writeBytes [] k l = [] := by
  induction l generalizing k with
  | nil => rfl
  | cons b l ih =>
    have h0 : b = unlistedByte k := h 0 (by simp)
    have : Memory.write [] k b = [] := by simp [Memory.write, Memory.put, h0]
    rw [Memory.writeBytes, this]
    refine ih (k + 1) (fun j hj => ?_)
    have := h (j + 1) (by simp; omega)
    rwa [show k + 1 + j = k + (j + 1) by omega]

/-- The model's reset state is the parametrised one at the default FONT and seed 0 (R5, R63). -/
theorem resetWith_default : State.resetWith defaultFont 0 = State.reset := by
  have e : Memory.writeBytes [] Config.fontBase fontTable = [] := writeBytes_unlisted _ _ (by decide)
  show { State.reset with memory := Memory.writeBytes [] Config.fontBase fontTable } = State.reset
  rw [e]
  rfl

/-- Memory after Reset: FONT at 0x050 to 0x09F, 0x00 elsewhere (R45). -/
theorem resetWith_read (font : FontTable) (seed a : Nat) :
    (State.resetWith font seed).memory.read a = if h : 0x050 ≤ a ∧ a < 0x0A0 then font[a - 0x050] else 0x00#8 := by
  have hlen : font.toList.length = 80 := by simp
  rw [resetWith_memory, read_writeBytes (m := []) rfl font.toList (by rw [hlen]; decide)]
  simp only [Config.fontBase]
  split
  · rw [dif_pos (by omega)]; simp
  · rw [dif_neg (by omega), Memory.read, unlistedByte, if_neg (by omega)]

/-- The reset memory is canonical, whatever FONT is. -/
theorem resetWith_wf (font : FontTable) (seed : Nat) : (State.resetWith font seed).memory.wf = true :=
  writeBytes_wf _ _ rfl

end Sys2Proof.Machine
end

