-- ==== Sys2Proof/Laws/Registers.lean ====
section
/-! SUPPORT. Reading back what a register operation wrote. -/

namespace Sys2Proof.Machine

@[simp] theorem getV_setV_self (s : State) (x : Nibble) (v : Byte) : (s.setV x v).getV x = v := by
  simp [State.getV, State.setV]

theorem getV_setV_ne (s : State) {x j : Nibble} (v : Byte) (h : j ≠ x) : (s.setV x v).getV j = s.getV j := by
  have h' : x.toNat ≠ j.toNat := fun e => h (BitVec.eq_of_toNat_eq e.symm)
  simp [State.getV, State.setV, h']

theorem getV_setV (s : State) (x j : Nibble) (v : Byte) :
    (s.setV x v).getV j = if j = x then v else s.getV j := by
  split
  · next h => rw [h, getV_setV_self]
  · next h => exact getV_setV_ne s v h

/-- VF is written last: with x = 0xF the flag stays (R22). -/
theorem getV_setResultFlag (s : State) (x j : Nibble) (r f : Byte) :
    (s.setResultFlag x r f).getV j = if j = 0xF#4 then f else if j = x then r else s.getV j := by
  simp only [State.setResultFlag, getV_setV]

@[simp] theorem getV_advanceRng (s : State) (j : Nibble) : s.advanceRng.getV j = s.getV j := rfl

@[simp] theorem getV_skipIf (c : Bool) (s : State) (j : Nibble) : (skipIf c s).getV j = s.getV j := by
  simp [State.getV]

@[simp] theorem getV_takeFault (c : Cause) (p w : Word) (a : Nat) (s : State) (j : Nibble) :
    (takeFault c p w a s).getV j = s.getV j := rfl

/-- The registers are what `getV` reads. -/
theorem V_eq_of_getV {s t : State} (h : ∀ j, s.getV j = t.getV j) : s.V = t.V := by
  apply Vector.ext
  intro i hi
  have h16 : (BitVec.ofNat 4 i).toNat = i := by simp; omega
  simpa only [State.getV, h16] using h (BitVec.ofNat 4 i)

/-- Registers k, k+1, ... take the bytes in order; the others keep their values (R175). -/
theorem writeRegs_getElem (bs : List Byte) (V : Vector Byte 16) (k j : Nat) (hj : j < 16) :
    (writeRegs V k bs)[j] = if h : k ≤ j ∧ j < k + bs.length then bs[j - k] else V[j] := by
  induction bs generalizing V k with
  | nil => rw [dif_neg (by simp)]; rfl
  | cons b bs ih =>
    rw [writeRegs, ih]
    by_cases h1 : k + 1 ≤ j ∧ j < k + 1 + bs.length
    · have h2 : k ≤ j ∧ j < k + (b :: bs).length := by simp; omega
      rw [dif_pos h1, dif_pos h2]
      have h3 : j - k = (j - (k + 1)) + 1 := by omega
      simp [h3]
    · rw [dif_neg h1, Vector.getElem_setIfInBounds]
      by_cases h2 : k = j
      · subst h2; simp
      · rw [if_neg h2, dif_neg (by simp; omega)]

@[simp] theorem keyDown_setKey_self (s : State) (k : Nibble) (p : Bool) : (setKey k p s).keyDown k = p := by
  simp [State.keyDown, setKey]

theorem keyDown_setKey_ne (s : State) {k j : Nibble} (p : Bool) (h : j ≠ k) :
    (setKey k p s).keyDown j = s.keyDown j := by
  have h' : k.toNat ≠ j.toNat := fun e => h (BitVec.eq_of_toNat_eq e.symm)
  simp [State.keyDown, setKey, h']

end Sys2Proof.Machine
end

