-- ==== Sys2Proof/Laws/Ops.lean ====
section
/-! SUPPORT. For each shared operation, once, everything it can do. -/

namespace Sys2Proof.Machine

/-- An access goes on exactly when its last byte is inside memory; else MEM_DATA is taken (R66). -/
theorem checkRange_eq (last : Nat) (s : State) (k : Host.Outcome State Fault Refusal) :
    checkRange last s k =
      if last ≤ 0xFFF then k else .next (takeFault .memData (s.pc - 2#16) s.opcode last s) := by
  unfold checkRange raise
  split <;> split <;> first | rfl | omega

/-- What a handler's state becomes (R91 step 4, R234). -/
theorem commit_next_iff (s t : State) (out : Host.Outcome State Fault Refusal) :
    commit s out = .next t ↔
      ∃ u, out = .next u ∧ ((u.fault.halted = true ∧ t = faultedStep s u.fault) ∨ (u.fault.halted = false ∧ t = u)) := by
  cases out with
  | next u =>
    simp only [commit, Host.Outcome.next.injEq, exists_eq_left']
    split
    · next h => simp [h, eq_comm]
    · next h => simp [h, eq_comm]
  | fault f => simp [commit]
  | refused r => simp [commit]

/-- The three cases of a Step (R91). -/
theorem stepCycle_next_iff (s t : State) :
    stepCycle s = .next t ↔
      (s.fault.halted = true ∧ t = s) ∨
      (s.fault.halted = false ∧ 0xFFE < s.pc.toNat ∧ t = faultedStep s (raiseFetch s).fault) ∨
      (s.fault.halted = false ∧ s.pc.toNat ≤ 0xFFE ∧
        commit s (exec (decodeWord (fetchedWord s)) (preAdvanced s)) = .next t) := by
  unfold stepCycle
  split
  · next h => simp [h, eq_comm]
  · next h =>
    split
    · next h2 =>
      have : ¬ s.pc.toNat ≤ 0xFFE := by omega
      simp [h, h2, this, eq_comm]
    · next h2 => simp [h, h2]; intro _; omega

/-- The first event of the schedule happens, on the state with the rest of it (R9). -/
theorem step_cons (s : State) (e : Event) (rest : List Event) (h : s.schedule = e :: rest) :
    step s = applyEvent e { s with schedule := rest } := by
  simp [step, nextEvent, h]

/-- With nothing scheduled a step is a Step. -/
theorem step_nil (s : State) (h : s.schedule = []) : step s = stepCycle s := by
  simp [step, nextEvent, h]

/-- One step performs the event that is due, on the state with the rest of the schedule (R9). -/
theorem step_due (s : State) : step s = applyEvent (dueEvent s) { s with schedule := s.schedule.tail } := by
  obtain ⟨V, I, pc, stack, sp, DT, ST, key, video, memory, opcode, rng, fault, font, schedule, loadOpen⟩ := s
  cases schedule <;> rfl

/-- When the output of R246 is 1: a Step is due, it fetches, and the word is unmapped. -/
theorem unmappedOutput_iff (s : State) :
    unmappedOutput s = true ↔
      dueEvent s = .step ∧ s.fault.halted = false ∧ s.pc.toNat ≤ 0xFFE ∧ unmappedWord (fetchedWord s) = true := by
  simp [unmappedOutput, and_assoc]

/-- A timer goes down by one and stops at 0 (R240). -/
theorem countDown_toNat (t : Byte) : (countDown t).toNat = t.toNat - 1 := by
  unfold countDown
  split
  · next h => subst h; rfl
  · next h =>
    have h0 : t.toNat ≠ 0 := fun e => h (BitVec.eq_of_toNat_eq (by simpa using e))
    have := t.isLt
    rw [BitVec.toNat_sub]
    simp
    omega

/-- No pressed key, or the smallest one (R212). -/
theorem lowestPressedKey_none (s : State) : lowestPressedKey s = none ↔ ∀ k, s.keyDown k = false := by
  unfold lowestPressedKey
  rw [List.find?_eq_none]
  constructor
  · intro h k
    have := h k (by
      rw [List.mem_map]
      exact ⟨k.toNat, by have := k.isLt; simp; omega, by simp⟩)
    simpa using this
  · intro h k _
    simp [h k]

theorem lowestPressedKey_some (s : State) (k : Nibble) :
    lowestPressedKey s = some k ↔ s.keyDown k = true ∧ ∀ j, j.toNat < k.toNat → s.keyDown j = false := by
  unfold lowestPressedKey
  rw [List.find?_eq_some_iff_getElem]
  constructor
  · rintro ⟨hk, i, hi, rfl, hlt⟩
    simp only [List.length_map, List.length_range] at hi
    refine ⟨by simpa using hk, fun j hj => ?_⟩
    simp only [List.getElem_map, List.getElem_range, BitVec.toNat_ofNat] at hj
    have := hlt j.toNat (by omega)
    simpa using this
  · rintro ⟨hk, h⟩
    have hk16 := k.isLt
    refine ⟨by simpa using hk, k.toNat, by simp; omega, by simp, fun j hj => ?_⟩
    have := h (BitVec.ofNat 4 j) (by simp; omega)
    simpa using this

/-- A sprite bit toggles its pixel and no other, and records whether it was on; a clipped one does nothing (R192). -/
theorem plotPixel_spec (px py : Nat) (c : Canvas) (p : Nat) (hp : p < 2048) :
    (plotPixel px py c).1[p] = (if px ≤ 63 ∧ py ≤ 31 ∧ p = py * 64 + px then !c.1[p] else c.1[p]) ∧
    (plotPixel px py c).2 = (c.2 || (if h : px ≤ 63 ∧ py ≤ 31 then c.1[py * 64 + px] else false)) := by
  unfold plotPixel
  split
  · next h =>
    refine ⟨?_, by simp⟩
    rw [Vector.getElem_set]
    by_cases e : p = py * 64 + px
    · subst e; simp [h.1, h.2]
    · rw [if_neg (Ne.symm e), if_neg (fun h => e h.2.2)]
  · next h =>
    refine ⟨?_, by simp⟩
    rw [if_neg (fun h' => h ⟨h'.1, h'.2.1⟩)]

/-- A rejected image leaves memory as it is; an accepted one is copied to 0x200 upward (R272, R273). -/
theorem load_memory (bytes : List Byte) (s : State) :
    (load bytes s).memory =
      if bytes.length ≤ Config.loadMax then s.memory.writeBytes Config.loadBase bytes else s.memory := by
  simp only [load, loadRejected, decide_eq_true_eq]
  split <;> split <;> first | rfl | omega

/-- A Load keeps memory's canonical form. -/
theorem load_wf {s : State} (bytes : List Byte) (h : s.memory.wf = true) : (load bytes s).memory.wf = true := by
  rw [load_memory]
  split
  · exact writeBytes_wf _ _ h
  · exact h

/-- The schedule is the host's, FONT the machine's, and the seed the event's: the Reset event depends on nothing else
(R271). -/
theorem resetEvent_eq (seed : Nat) {s s' : State} (hf : s.font = s'.font) (hs : s.schedule = s'.schedule) :
    resetEvent seed s = resetEvent seed s' := by
  rw [resetEvent, resetEvent, hf, hs]

end Sys2Proof.Machine
end

