-- ==== Sys2Proof/Laws/PerInstr.lean ====
section
/-! SUPPORT. Facts about every instruction as syntax, one lemma per constructor. -/

/-- The family nibble the opcode map of R97 gives an instruction; the words of the no-op lie in families 0, 8, E, F. -/
def Sys2Proof.Laws.EncodedFamily.Statement (i : Sys2Proof.Instr) : Prop :=
  i.wellFormed = true → Sys2Proof.fieldFamily (Sys2Proof.encode i) ∈
    (match i with
      | .cls => [0x0#4]
      | .ret => [0x0#4]
      | .jp _ => [0x1#4]
      | .call _ => [0x2#4]
      | .seVxKk _ _ => [0x3#4]
      | .sneVxKk _ _ => [0x4#4]
      | .seVxVy _ _ => [0x5#4]
      | .ldVxKk _ _ => [0x6#4]
      | .addVxKk _ _ => [0x7#4]
      | .ldVxVy _ _ => [0x8#4]
      | .orVxVy _ _ => [0x8#4]
      | .andVxVy _ _ => [0x8#4]
      | .xorVxVy _ _ => [0x8#4]
      | .addVxVy _ _ => [0x8#4]
      | .subVxVy _ _ => [0x8#4]
      | .shrVx _ => [0x8#4]
      | .subnVxVy _ _ => [0x8#4]
      | .shlVx _ => [0x8#4]
      | .sneVxVy _ _ => [0x9#4]
      | .ldIAddr _ => [0xA#4]
      | .jpV0 _ => [0xB#4]
      | .rndVxKk _ _ => [0xC#4]
      | .drwVxVyN _ _ _ => [0xD#4]
      | .skpVx _ => [0xE#4]
      | .sknpVx _ => [0xE#4]
      | .ldVxDt _ => [0xF#4]
      | .ldVxK _ => [0xF#4]
      | .ldDtVx _ => [0xF#4]
      | .ldStVx _ => [0xF#4]
      | .addIVx _ => [0xF#4]
      | .ldFVx _ => [0xF#4]
      | .ldBVx _ => [0xF#4]
      | .ldMemVx _ => [0xF#4]
      | .ldVxMem _ => [0xF#4]
      | .nopUnmapped _ => [0x0#4, 0x8#4, 0xE#4, 0xF#4] : List Sys2Proof.Nibble)

namespace Sys2Proof.Laws.EncodedFamily

open Sys2Proof

theorem cls : Statement .cls := fun _ => by decide
theorem ret : Statement .ret := fun _ => by decide
theorem jp (nnn : Addr) : Statement (.jp nnn) := fun _ => by simp [encode]
theorem call (nnn : Addr) : Statement (.call nnn) := fun _ => by simp [encode]
theorem seVxKk (x : Nibble) (kk : Byte) : Statement (.seVxKk x kk) := fun _ => by simp [encode]
theorem sneVxKk (x : Nibble) (kk : Byte) : Statement (.sneVxKk x kk) := fun _ => by simp [encode]
theorem seVxVy (x y : Nibble) : Statement (.seVxVy x y) := fun _ => by simp [encode]
theorem ldVxKk (x : Nibble) (kk : Byte) : Statement (.ldVxKk x kk) := fun _ => by simp [encode]
theorem addVxKk (x : Nibble) (kk : Byte) : Statement (.addVxKk x kk) := fun _ => by simp [encode]
theorem ldVxVy (x y : Nibble) : Statement (.ldVxVy x y) := fun _ => by simp [encode]
theorem orVxVy (x y : Nibble) : Statement (.orVxVy x y) := fun _ => by simp [encode]
theorem andVxVy (x y : Nibble) : Statement (.andVxVy x y) := fun _ => by simp [encode]
theorem xorVxVy (x y : Nibble) : Statement (.xorVxVy x y) := fun _ => by simp [encode]
theorem addVxVy (x y : Nibble) : Statement (.addVxVy x y) := fun _ => by simp [encode]
theorem subVxVy (x y : Nibble) : Statement (.subVxVy x y) := fun _ => by simp [encode]
theorem shrVx (x : Nibble) : Statement (.shrVx x) := fun _ => by simp [encode]
theorem subnVxVy (x y : Nibble) : Statement (.subnVxVy x y) := fun _ => by simp [encode]
theorem shlVx (x : Nibble) : Statement (.shlVx x) := fun _ => by simp [encode]
theorem sneVxVy (x y : Nibble) : Statement (.sneVxVy x y) := fun _ => by simp [encode]
theorem ldIAddr (nnn : Addr) : Statement (.ldIAddr nnn) := fun _ => by simp [encode]
theorem jpV0 (nnn : Addr) : Statement (.jpV0 nnn) := fun _ => by simp [encode]
theorem rndVxKk (x : Nibble) (kk : Byte) : Statement (.rndVxKk x kk) := fun _ => by simp [encode]
theorem drwVxVyN (x y n : Nibble) : Statement (.drwVxVyN x y n) := fun _ => by simp [encode]
theorem skpVx (x : Nibble) : Statement (.skpVx x) := fun _ => by simp [encode]
theorem sknpVx (x : Nibble) : Statement (.sknpVx x) := fun _ => by simp [encode]
theorem ldVxDt (x : Nibble) : Statement (.ldVxDt x) := fun _ => by simp [encode]
theorem ldVxK (x : Nibble) : Statement (.ldVxK x) := fun _ => by simp [encode]
theorem ldDtVx (x : Nibble) : Statement (.ldDtVx x) := fun _ => by simp [encode]
theorem ldStVx (x : Nibble) : Statement (.ldStVx x) := fun _ => by simp [encode]
theorem addIVx (x : Nibble) : Statement (.addIVx x) := fun _ => by simp [encode]
theorem ldFVx (x : Nibble) : Statement (.ldFVx x) := fun _ => by simp [encode]
theorem ldBVx (x : Nibble) : Statement (.ldBVx x) := fun _ => by simp [encode]
theorem ldMemVx (x : Nibble) : Statement (.ldMemVx x) := fun _ => by simp [encode]
theorem ldVxMem (x : Nibble) : Statement (.ldVxMem x) := fun _ => by simp [encode]
theorem nopUnmapped (word : Word) : Statement (.nopUnmapped word) := by
  intro h
  simp only [Instr.wellFormed, unmappedWord, Bool.or_eq_true, Bool.and_eq_true, beq_iff_eq] at h
  rcases h with ((⟨h, -⟩ | ⟨h, -⟩) | ⟨h, -⟩) | ⟨h, -⟩ <;> simp [encode, fieldFamily, h]

end Sys2Proof.Laws.EncodedFamily
end

