-- ==== Sys2Proof/Tests/Slice0.lean ====
section
/-! SUPPORT. The model's own tests. Expected values are those of spec/95_test_vectors.md (the row's id stands in each
docstring) or of the cited rule; none is the model's own answer. The witnesses show, for every obligation with
hypotheses, a state that meets them, each clause at the ends of its range. -/

namespace Sys2Proof.Tests

open Sys2Proof Sys2Proof.Machine Sys2Proof.Claims

/-! ## Helpers -/

/-- What a step's next state shows of itself, if there is one. -/
def look {α : Type} (out : Host.Outcome State Fault Refusal) (f : State → α) : Option α :=
  match out with
  | .next t => some (f t)
  | .fault _ => none
  | .refused _ => none

/-- Whether a step is refused, and why. -/
def refusal (out : Host.Outcome State Fault Refusal) : Option Refusal :=
  match out with
  | .next _ => none
  | .fault _ => none
  | .refused r => some r

/-- The reset state with some registers set. -/
def regs (vs : List (Nibble × Byte)) : State := vs.foldl (fun s p => s.setV p.1 p.2) State.reset

/-- Bytes stored at an address. -/
def bytesAt (a : Nat) (bs : List Byte) (s : State) : State := { s with memory := s.memory.writeBytes a bs }

/-- Some keys held down. -/
def keysDown (ks : List Nibble) (s : State) : State := ks.foldl (fun s k => setKey k true s) s

/-- Some pixels on. -/
def pixelsOn (ps : List Nat) (s : State) : State :=
  { s with video := ps.foldl (fun v p => v.setIfInBounds p true) s.video }

/-- One Step from a vector's start state: the word stored at `a`, pc there. -/
def runAt (a w : Nat) (s : State) : Host.Outcome State Fault Refusal :=
  step ({ s with pc := BitVec.ofNat 16 a }.withFetchWord 16 w)

/-- One Step of a word at 0x200. -/
def run (w : Nat) (s : State) : Host.Outcome State Fault Refusal := runAt 0x200 w s

/-- pc and one register. -/
def pcV (x : Nibble) (t : State) : Word × Byte := (t.pc, t.getV x)

/-- pc, one register and VF. -/
def pcVF (x : Nibble) (t : State) : Word × Byte × Byte := (t.pc, t.getV x, t.getV 0xF#4)

/-- pc and the fault record. -/
def pcFault (t : State) : Word × FaultRecord := (t.pc, t.fault)

/-- The record of a fault (R231). -/
def record (c : Cause) (fpc fop : Word) (faddr : BitVec 17) : FaultRecord :=
  { halted := true, cause := c, fpc := fpc, fop := fop, faddr := faddr }

/-- A halted state: the reset state after a RET with nothing on the stack (T8). -/
def haltedState : State := { State.reset with fault := record .stackUnderflow 0x0200#16 0x00EE#16 0#17 }

/-! ## Well-formedness: the one check, on words that some row of R97 matches and on words that none does (R99) -/

theorem smoke_nop_of_family0_refused : (Instr.nopUnmapped 0x00E0#16).wellFormed = false := by decide
theorem smoke_nop_of_ret_refused : (Instr.nopUnmapped 0x0ABE#16).wellFormed = false := by decide
theorem smoke_nop_of_family1_refused : (Instr.nopUnmapped 0x1234#16).wellFormed = false := by decide
theorem smoke_nop_of_family8_refused : (Instr.nopUnmapped 0x8124#16).wellFormed = false := by decide
theorem smoke_nop_of_family9_refused : (Instr.nopUnmapped 0x912F#16).wellFormed = false := by decide
theorem smoke_nop_of_familyE_refused : (Instr.nopUnmapped 0xE00E#16).wellFormed = false := by decide
theorem smoke_nop_of_familyF_refused : (Instr.nopUnmapped 0xF007#16).wellFormed = false := by decide
theorem smoke_nops_accepted :
    ([0x0001#16, 0x8128#16, 0x812F#16, 0xE09F#16, 0xF0FF#16, 0xF100#16].map
      fun w => (Instr.nopUnmapped w).wellFormed) = [true, true, true, true, true, true] := by decide

/-! ## Decoding: a word of every row, its fields written out from R92 and R97, or a word of spec/95_test_vectors.md -/

/-- Families 0 to 7; the canonical words and aliases of R96 and R97. -/
theorem test_decode_low_families :
    ([0x00E0#16, 0x0000#16, 0x00EE#16, 0x0ABE#16, 0x1204#16, 0x2300#16, 0x3A00#16, 0x4A10#16, 0x5120#16, 0x512F#16,
      0x639D#16, 0x70FF#16].map decodeWord) =
    [.cls, .cls, .ret, .ret, .jp 0x204#12, .call 0x300#12, .seVxKk 0xA#4 0x00#8, .sneVxKk 0xA#4 0x10#8,
     .seVxVy 0x1#4 0x2#4, .seVxVy 0x1#4 0x2#4, .ldVxKk 0x3#4 0x9D#8, .addVxKk 0x0#4 0xFF#8] := by decide

/-- Family 8, selected by bits 3:0; SHR and SHL ignore y (R94, R97). -/
theorem test_decode_family8 :
    ([0x8120#16, 0x8121#16, 0x8122#16, 0x8123#16, 0x8F14#16, 0x81F5#16, 0x8126#16, 0x8127#16, 0x812E#16,
      0x8128#16].map decodeWord) =
    [.ldVxVy 0x1#4 0x2#4, .orVxVy 0x1#4 0x2#4, .andVxVy 0x1#4 0x2#4, .xorVxVy 0x1#4 0x2#4, .addVxVy 0xF#4 0x1#4,
     .subVxVy 0x1#4 0xF#4, .shrVx 0x1#4, .subnVxVy 0x1#4 0x2#4, .shlVx 0x1#4, .nopUnmapped 0x8128#16] := by decide

/-- Families 9 to E (R93, R94, R97). -/
theorem test_decode_high_families :
    ([0x9120#16, 0xA20E#16, 0xBFFF#16, 0xC10F#16, 0xD123#16, 0xE09E#16, 0xE00E#16, 0xE3A1#16, 0xE09F#16].map decodeWord) =
    [.sneVxVy 0x1#4 0x2#4, .ldIAddr 0x20E#12, .jpV0 0xFFF#12, .rndVxKk 0x1#4 0x0F#8, .drwVxVyN 0x1#4 0x2#4 0x3#4,
     .skpVx 0x0#4, .skpVx 0x0#4, .sknpVx 0x3#4, .nopUnmapped 0xE09F#16] := by decide

/-- Family F, selected by bits 7:0 (R95, R97). -/
theorem test_decode_familyF :
    ([0xF107#16, 0xF00A#16, 0xF215#16, 0xF018#16, 0xF21E#16, 0xF029#16, 0xF333#16, 0xF255#16, 0xFF65#16,
      0xF0FF#16].map decodeWord) =
    [.ldVxDt 0x1#4, .ldVxK 0x0#4, .ldDtVx 0x2#4, .ldStVx 0x0#4, .addIVx 0x2#4, .ldFVx 0x0#4, .ldBVx 0x3#4,
     .ldMemVx 0x2#4, .ldVxMem 0xF#4, .nopUnmapped 0xF0FF#16] := by decide

/-- The bytes of an instruction stand most significant first (R64); fewer than two are refused (R90). -/
theorem test_decode_bytes : decode [0xA2#8, 0x0E#8, 0x60#8] = .ok (.ldIAddr 0x20E#12, [0x60#8]) := by rfl
theorem test_decode_one_byte : decode [0xA2#8] = .error .truncated := by rfl
theorem test_decodeTableWord : decodeTableWord 16 0xD012 = some (.drwVxVyN 0x0#4 0x1#4 0x2#4) := by decide

/-- The canonical words of R97 and R100 for the rows with bits the decoder ignores. -/
theorem test_encode_canonical :
    ([Instr.cls, .ret, .seVxVy 0x1#4 0x2#4, .shrVx 0x1#4, .shlVx 0xF#4, .sneVxVy 0x1#4 0x2#4, .skpVx 0x0#4,
      .sknpVx 0x0#4].map encode) =
    [0x00E0#16, 0x00EE#16, 0x5120#16, 0x8106#16, 0x8F0E#16, 0x9120#16, 0xE09E#16, 0xE0A1#16] := by decide

/-! ## Control transfer -/

/-- T3. -/
theorem test_jp_odd : look (run 0x1001 State.reset) (·.pc) = some 0x0001#16 := by decide
/-- T24. -/
theorem test_jp_last_address : look (runAt 0xFFE 0x1200 State.reset) (·.pc) = some 0x0200#16 := by decide
/-- T4. -/
theorem test_call : look (runAt 0x204 0x2300 State.reset) (fun t => (t.pc, t.sp, t.stack[0])) =
    some (0x0300#16, 1, 0x0206#16) := by decide
/-- T5. -/
theorem test_call_full : look (run 0x2300 { State.reset with sp := 16 }) (fun t => (pcFault t, t.sp, t.stack[15])) =
    some ((0x0200#16, record .stackOverflow 0x0200#16 0x2300#16 0#17), 16, 0#16) := by decide
/-- T7. -/
theorem test_ret : look (runAt 0x300 0x00EE { State.reset with sp := 1, stack := State.reset.stack.set 0 0x0206#16 })
    (fun t => (t.pc, t.sp, t.stack[0])) = some (0x0206#16, 0, 0x0206#16) := by decide
/-- T8. -/
theorem test_ret_empty : look (run 0x00EE State.reset) (fun t => (pcFault t, t.sp)) =
    some ((0x0200#16, record .stackUnderflow 0x0200#16 0x00EE#16 0#17), 0) := by decide
/-- T11. -/
theorem test_jpV0_not_masked : look (run 0xBFFF (regs [(0x0#4, 0xFF#8)])) (·.pc) = some 0x10FE#16 := by decide
/-- T12. -/
theorem test_seKk_taken : look (runAt 0x208 0x3000 State.reset) (·.pc) = some 0x020C#16 := by decide
/-- T13. -/
theorem test_seKk_not_taken : look (runAt 0x208 0x3000 (regs [(0x0#4, 1#8)])) (·.pc) = some 0x020A#16 := by decide
/-- T14. -/
theorem test_sneKk_not_taken : look (run 0x4A10 (regs [(0xA#4, 0x10#8)])) (·.pc) = some 0x0202#16 := by decide
/-- T15. -/
theorem test_sneKk_taken : look (run 0x4A10 (regs [(0xA#4, 0x11#8)])) (·.pc) = some 0x0204#16 := by decide
/-- T18. -/
theorem test_seVy_taken : look (run 0x512F (regs [(1#4, 7#8), (2#4, 7#8)])) (·.pc) = some 0x0204#16 := by decide
/-- T17. -/
theorem test_seVy_not_taken : look (run 0x5120 (regs [(1#4, 7#8), (2#4, 8#8)])) (·.pc) = some 0x0202#16 := by decide
/-- T19. -/
theorem test_sneVy_taken : look (run 0x9120 (regs [(1#4, 7#8), (2#4, 8#8)])) (·.pc) = some 0x0204#16 := by decide
/-- T20. -/
theorem test_sneVy_same : look (run 0x9110 (regs [(1#4, 7#8)])) (·.pc) = some 0x0202#16 := by decide
/-- T22. -/
theorem test_fetch_past_the_end : look (step { State.reset with pc := 0x1000#16 }) pcFault =
    some (0x1000#16, record .memFetch 0x1000#16 0#16 0x1001#17) := by decide
/-- T23. -/
theorem test_fetch_of_half_a_word : look (step { State.reset with pc := 0x0FFF#16 }) pcFault =
    some (0x0FFF#16, record .memFetch 0x0FFF#16 0#16 0x1000#17) := by decide

/-! ## Register loads and the ALU -/

/-- A1. -/
theorem test_ldKk : look (run 0x639D State.reset) (pcV 3#4) = some (0x0202#16, 0x9D#8) := by decide
/-- A2. -/
theorem test_addKk_no_flag : look (run 0x70FF (regs [(0#4, 5#8), (0xF#4, 0x55#8)])) (pcVF 0#4) =
    some (0x0202#16, 4#8, 0x55#8) := by decide
/-- A4. -/
theorem test_addKk_VF : look (run 0x7F01 (regs [(0xF#4, 0xFF#8)])) (pcV 0xF#4) = some (0x0202#16, 0#8) := by decide
/-- A5. -/
theorem test_ldVy : look (run 0x8120 (regs [(2#4, 0x7F#8)])) (pcV 1#4) = some (0x0202#16, 0x7F#8) := by decide
/-- A6. -/
theorem test_or : look (run 0x8121 (regs [(1#4, 0xF0#8), (2#4, 0x0F#8), (0xF#4, 1#8)])) (pcVF 1#4) =
    some (0x0202#16, 0xFF#8, 1#8) := by decide
/-- A7. -/
theorem test_and : look (run 0x8122 (regs [(1#4, 0xF0#8), (2#4, 0x3C#8), (0xF#4, 1#8)])) (pcVF 1#4) =
    some (0x0202#16, 0x30#8, 1#8) := by decide
/-- A8. -/
theorem test_xor : look (run 0x8123 (regs [(1#4, 0xF0#8), (2#4, 0x3C#8), (0xF#4, 1#8)])) (pcVF 1#4) =
    some (0x0202#16, 0xCC#8, 1#8) := by decide
/-- A10. -/
theorem test_add_carry : look (run 0x8124 (regs [(1#4, 0xFF#8), (2#4, 1#8)])) (pcVF 1#4) =
    some (0x0202#16, 0#8, 1#8) := by decide
/-- A13. -/
theorem test_add_VF : look (run 0x8F14 (regs [(0xF#4, 0xFF#8), (1#4, 1#8)])) (pcV 0xF#4) =
    some (0x0202#16, 1#8) := by decide
/-- A16. -/
theorem test_sub_borrow : look (run 0x8125 (regs [(1#4, 5#8), (2#4, 0xA#8), (0xF#4, 1#8)])) (pcVF 1#4) =
    some (0x0202#16, 0xFB#8, 0#8) := by decide
/-- A17. -/
theorem test_sub_equal : look (run 0x8125 (regs [(1#4, 7#8), (2#4, 7#8)])) (pcVF 1#4) =
    some (0x0202#16, 0#8, 1#8) := by decide
/-- A22. -/
theorem test_shr_ignores_y : look (run 0x8126 (regs [(1#4, 4#8), (2#4, 0xFF#8), (0xF#4, 1#8)])) (pcVF 1#4) =
    some (0x0202#16, 2#8, 0#8) := by decide
/-- A23. -/
theorem test_shr_VF : look (run 0x8F06 (regs [(0xF#4, 3#8)])) (pcV 0xF#4) = some (0x0202#16, 1#8) := by decide
/-- A25. -/
theorem test_subn_borrow : look (run 0x8127 (regs [(1#4, 0xA#8), (2#4, 5#8), (0xF#4, 1#8)])) (pcVF 1#4) =
    some (0x0202#16, 0xFB#8, 0#8) := by decide
/-- A27. -/
theorem test_subn_VF : look (run 0x8F17 (regs [(0xF#4, 5#8), (1#4, 3#8)])) (pcV 0xF#4) =
    some (0x0202#16, 0#8) := by decide
/-- A28. -/
theorem test_shl : look (run 0x810E (regs [(1#4, 0x81#8)])) (pcVF 1#4) = some (0x0202#16, 2#8, 1#8) := by decide
/-- A30. -/
theorem test_shl_VF : look (run 0x8F0E (regs [(0xF#4, 0x80#8)])) (pcV 0xF#4) = some (0x0202#16, 1#8) := by decide
/-- A31. -/
theorem test_unmapped : look (run 0x8128 (regs [(1#4, 0xA#8), (2#4, 5#8), (0xF#4, 1#8)])) (pcVF 1#4) =
    some (0x0202#16, 0xA#8, 1#8) := by decide

/-! ## The index register and memory -/

/-- M1. -/
theorem test_ldI : look (run 0xA300 State.reset) (fun t => (t.pc, t.I)) = some (0x0202#16, 0x0300#16) := by decide
/-- M3. -/
theorem test_addI_past_memory : look (run 0xF21E { regs [(2#4, 1#8)] with I := 0x0FFF#16 })
    (fun t => (t.I, t.getV 0xF#4, t.fault.halted)) = some (0x1000#16, 0#8, false) := by decide
/-- M4. -/
theorem test_addI_wraps : look (run 0xF21E { regs [(2#4, 2#8)] with I := 0xFFFF#16 }) (·.I) =
    some 0x0001#16 := by decide
/-- M6. -/
theorem test_ldF_not_masked : look (run 0xF029 (regs [(0#4, 0x1A#8)])) (·.I) = some 0x00D2#16 := by decide
/-- M7. -/
theorem test_ldF_largest : look (run 0xF029 (regs [(0#4, 0xFF#8)])) (·.I) = some 0x054B#16 := by decide
/-- M8. -/
theorem test_ldB : look (run 0xF333 { regs [(3#4, 0x9D#8)] with I := 0x0300#16 })
    (fun t => (t.pc, t.memory.readBytes 0x300 3)) = some (0x0202#16, [1#8, 5#8, 7#8]) := by decide
/-- M12. -/
theorem test_ldB_past_memory : look (run 0xF333 { regs [(3#4, 7#8)] with I := 0x0FFE#16 })
    (fun t => (pcFault t, t.memory.readBytes 0xFFE 2)) =
    some ((0x0200#16, record .memData 0x0200#16 0xF333#16 0x1000#17), [0#8, 0#8]) := by decide
/-- M13. -/
theorem test_store :
    look (run 0xF255 { regs [(0#4, 0x11#8), (1#4, 0x22#8), (2#4, 0x33#8), (3#4, 0x44#8)] with I := 0x0400#16 })
      (fun t => (t.I, t.memory.readBytes 0x400 4)) = some (0x0400#16, [0x11#8, 0x22#8, 0x33#8, 0#8]) := by decide
/-- M15. -/
theorem test_store_past_memory : look (run 0xF155 { regs [(0#4, 0xAB#8), (1#4, 0xCD#8)] with I := 0x0FFF#16 })
    (fun t => (pcFault t, t.memory.read 0xFFF)) =
    some ((0x0200#16, record .memData 0x0200#16 0xF155#16 0x1000#17), 0#8) := by decide
/-- M16. -/
theorem test_load :
    look (run 0xF265 (bytesAt 0x300 [1#8, 5#8, 7#8, 9#8] { regs [(3#4, 0x9D#8)] with I := 0x0300#16 }))
      (fun t => (t.I, [0#4, 1#4, 2#4, 3#4].map t.getV)) = some (0x0300#16, [1#8, 5#8, 7#8, 0x9D#8]) := by decide
/-- M17. -/
theorem test_load_past_memory : look (run 0xFF65 { State.reset with I := 0x0FF1#16 }) pcFault =
    some (0x0200#16, record .memData 0x0200#16 0xFF65#16 0x1000#17) := by decide

/-! ## Display -/

/-- G1. -/
theorem test_cls : look (run 0x00E0 (pixelsOn [0, 2047] (regs [(0xF#4, 1#8)])))
    (fun t => (t.pc, t.video[0], t.video[2047], t.getV 0xF#4)) = some (0x0202#16, false, false, 1#8) := by
  decide +kernel
/-- G4: the start position wraps, the right edge clips. -/
theorem test_drw_wraps_and_clips :
    look (run 0xD011 (bytesAt 0x300 [0xF0#8] { regs [(0#4, 0x7E#8), (1#4, 0xFF#8)] with I := 0x0300#16 }))
      (fun t => (t.video[2045], t.video[2046], t.video[2047], t.video[1984], t.video[0], t.getV 0xF#4)) =
    some (false, true, true, false, false, 0#8) := by decide +kernel
/-- G6. -/
theorem test_drw_collision :
    look (run 0xD011 (pixelsOn [1] (bytesAt 0x300 [0xC0#8] { State.reset with I := 0x0300#16 })))
      (fun t => (t.pc, t.video[0], t.video[1], t.getV 0xF#4)) = some (0x0202#16, true, false, 1#8) := by decide +kernel
/-- G8: VF is the column, read before it is cleared. -/
theorem test_drw_VF_column :
    look (run 0xDF11 (bytesAt 0x300 [0x80#8] { regs [(0xF#4, 5#8), (1#4, 2#8)] with I := 0x0300#16 }))
      (fun t => (t.video[133], t.getV 0xF#4)) = some (true, 0#8) := by decide +kernel
/-- G9. -/
theorem test_drw_past_memory : look (run 0xD012 { regs [(0xF#4, 1#8)] with I := 0x0FFF#16 })
    (fun t => (pcFault t, t.getV 0xF#4)) =
    some ((0x0200#16, record .memData 0x0200#16 0xD012#16 0x1000#17), 1#8) := by decide
/-- G7. -/
theorem test_drw_no_rows : look (run 0xD010 { regs [(0xF#4, 1#8)] with I := 0xFFFF#16 })
    (fun t => (t.pc, t.fault.halted, t.getV 0xF#4)) = some (0x0202#16, false, 0#8) := by decide

/-! ## Keys, timers, random -/

/-- K3. -/
theorem test_skp_low_nibble : look (run 0xE09E (keysDown [0xA#4] (regs [(0#4, 0x1A#8)]))) (·.pc) =
    some 0x0204#16 := by decide
/-- K2. -/
theorem test_skp_up : look (run 0xE09E (regs [(0#4, 7#8)])) (·.pc) = some 0x0202#16 := by decide
/-- K4. -/
theorem test_sknp_up : look (run 0xE0A1 (regs [(0#4, 7#8)])) (·.pc) = some 0x0204#16 := by decide
/-- K5. -/
theorem test_sknp_down : look (run 0xE0A1 (keysDown [7#4] (regs [(0#4, 7#8)]))) (·.pc) = some 0x0202#16 := by decide
/-- K8. -/
theorem test_key_wait_stays : look (run 0xF00A (regs [(0#4, 0x55#8)])) (pcV 0#4) = some (0x0200#16, 0x55#8) := by decide
/-- K10. -/
theorem test_key_wait_lowest : look (run 0xF00A (keysDown [9#4, 3#4] State.reset)) (pcV 0#4) =
    some (0x0202#16, 3#8) := by decide
/-- K11. -/
theorem test_ldVxDt : look (run 0xF107 { State.reset with DT := 5#8 }) (pcV 1#4) = some (0x0202#16, 5#8) := by decide
/-- K12. -/
theorem test_ldDtVx : look (run 0xF015 (regs [(0#4, 7#8)])) (fun t => (t.DT, t.ST)) = some (7#8, 0#8) := by decide
/-- K13. -/
theorem test_ldStVx : look (run 0xF018 (regs [(0#4, 0x1E#8)])) (fun t => (t.DT, t.ST)) = some (0#8, 0x1E#8) := by decide
/-- K14, K16: whatever the draw is, it is masked by kk, and one draw is made. -/
theorem test_rnd : look (run 0xC10F State.reset) (fun t => (t.pc, t.getV 1#4, t.rng)) =
    some (0x0202#16, Config.randomByte 0 0 &&& 0x0F#8, ⟨0, 1⟩) := by rfl
/-- K15: with kk = 0 the result is 0 whatever the draw, which is made all the same. -/
theorem test_rnd_zero : look (run 0xC100 (regs [(1#4, 0x33#8)])) (fun t => (t.getV 1#4, t.rng.drawn)) =
    some (0#8, 1) := by
  have h : look (run 0xC100 (regs [(1#4, 0x33#8)])) (fun t => (t.getV 1#4, t.rng.drawn)) =
    some (Config.randomByte 0 0 &&& 0#8, 1) := rfl
  rw [h]; simp

/-! ## Events, and the halted engine -/

/-- V1, V3. -/
theorem test_tick : look (step { State.reset with DT := 2#8, ST := 0#8, schedule := [.tick] })
    (fun t => (t.DT, t.ST, t.schedule)) = some (1#8, 0#8, []) := by decide
/-- V4. -/
theorem test_tick_while_halted : look (step { haltedState with DT := 3#8, schedule := [.tick] }) (·.DT) =
    some 2#8 := by decide
/-- V5, V6. -/
theorem test_setKey : look (step { State.reset with schedule := [.setKey 0xF#4 true] })
    (fun t => (t.keyDown 0xF#4, t.keyDown 0xE#4, (setKey 0xF#4 false t).keyDown 0xF#4)) =
    some (true, false, false) := by decide
/-- V8. -/
theorem test_readFramebuffer : (readFramebuffer (pixelsOn [5] State.reset))[5] = true := by decide +kernel
/-- V9, from a halted machine with another FONT. -/
def resetRun : Host.Outcome State Fault Refusal :=
  step { bytesAt 0x052 [0xAA#8] haltedState with
    pc := 0x0FFF#16, DT := 3#8, font := Vector.replicate 80 0x81#8, schedule := [.reset 7, .tick] }
theorem test_reset : look resetRun (fun t => (pcFault t, t.DT)) = some ((0x0200#16, FaultRecord.clear), 0#8) := by
  decide +kernel
/-- R45, R5: the machine's own FONT comes back, the source is seeded, what is scheduled goes on. -/
theorem test_reset_arguments :
    look resetRun (fun t => (t.memory.readBytes 0x09F 2, t.loadOpen, t.rng, t.schedule)) =
    some ([0x81#8, 0x00#8], true, ⟨7, 0⟩, [.tick]) := by decide +kernel
/-- V10. -/
theorem test_load_event : look (step { State.reset with schedule := [.load [0x12#8, 0x00#8]] })
    (fun t => (t.memory.read 0x200, t.memory.read 0x201, t.pc, t.memory.wf)) =
    some (0x12#8, 0x00#8, 0x0200#16, true) := by decide
/-- E7: one byte too many is rejected and nothing is copied. -/
theorem test_load_too_long : loadRejected (List.replicate 3585 0xFF#8) = true ∧
    loadRejected (List.replicate 3584 0xFF#8) = false := by
  constructor <;> (rw [loadRejected, List.length_replicate]; decide)
/-- R274: no Load is admitted after a Step. -/
theorem test_late_load : refusal (step { State.reset with loadOpen := false, schedule := [.load []] }) =
    some .loadOutOfPlace := by decide
/-- R274: a rejected Load is the one Load of its Reset, too. -/
theorem test_second_load :
    look (applyEvent (.load (List.replicate 3585 0xFF#8)) State.reset) (fun t => refusal (applyEvent (.load []) t)) =
    some (some .loadOutOfPlace) := rfl
/-- T25. -/
theorem test_halted_step : step haltedState = .next haltedState := by rfl
/-- R63: the glyph of 0xA as the spec's default table has it, where LD F points (M5). -/
theorem test_font : State.reset.memory.readBytes 0x082 5 = [0xF0#8, 0x90#8, 0xF0#8, 0x90#8, 0x90#8] := by decide
/-- P6, R276: with nothing placed, reset memory runs as CLS. -/
theorem test_zeroed_memory : look (step (pixelsOn [5] State.reset)) (fun t => (t.pc, t.video[5])) =
    some (0x0202#16, false) := by decide +kernel
/-- T2: a jump to itself is the end of a run. -/
theorem test_end_of_run : EndOfRun (State.reset.withFetchWord 16 0x1200) = true := by decide
/-- R246: the optional output is up for a Step that executes a no-op, scheduled or not, and down for a CLS, for any other
event before that no-op, and for a halted engine. -/
theorem test_unmapped_output :
    let s := State.reset.withFetchWord 16 0xF100
    unmappedOutput s = true ∧ unmappedOutput { s with schedule := [.step, .tick] } = true ∧
    unmappedOutput State.reset = false ∧
    ([.tick, .setKey 0#4 true, .load [], .reset 0, .readFramebuffer].map fun e : Event =>
      unmappedOutput { s with schedule := [e, .step] }) = [false, false, false, false, false] ∧
    unmappedOutput { s with fault := haltedState.fault } = false := by decide

/-! ## Witnesses: for every obligation with hypotheses, values that meet them together, each clause at the ends of its
range -/

/-- A state in the middle of nothing: pre-advanced, the latch set, three registers and the font address. -/
def working : State :=
  { regs [(0#4, 0x12#8), (1#4, 0x0C#8), (2#4, 0x1A#8)] with pc := 0x0202#16, opcode := 0xF155#16, I := 0x0200#16 }

theorem witness_DecodeOfEncodedBytesIsTheInstruction :
    (Instr.drwVxVyN 0xF#4 0x0#4 0xF#4).wellFormed = true ∧ (Instr.nopUnmapped 0xFFFF#16).wellFormed = true ∧
    (Instr.nopUnmapped 0x0001#16).wellFormed = true := by decide

theorem witness_DecoderFollowsTheOpcodeMap :
    (∃ r ∈ opcodeTable, r.matchesWord 0xF065#16 = true) ∧
    (∃ r ∈ opcodeTable, r.matchesWord 0x0000#16 = true) ∧
    (∀ r ∈ opcodeTable, r.matchesWord 0x0001#16 = false) ∧
    (∀ r ∈ opcodeTable, r.matchesWord 0xFFFF#16 = false) := by decide

theorem witness_StepRunsTheDecodedInstruction_halted :
    haltedState.schedule = [] ∧ haltedState.fault.halted = true := by decide

theorem witness_StepRunsTheDecodedInstruction_past_the_end :
    ∃ s s' : State, (s.schedule = [] ∧ s.fault.halted = false ∧ s.pc.toNat = 0xFFF) ∧
      (s'.schedule = [] ∧ s'.fault.halted = false ∧ s'.pc.toNat = 0xFFFF) :=
  ⟨{ State.reset with pc := 0x0FFF#16 }, { State.reset with pc := 0xFFFF#16 }, by decide⟩

theorem witness_StepRunsTheDecodedInstruction_runs :
    ∃ (s : State) (i : Instr) (t : State), s.schedule = [] ∧ s.fault.halted = false ∧ s.pc.toNat = 0xFFE ∧
      decode [s.memory.read s.pc.toNat, s.memory.read (s.pc.toNat + 1)] = .ok (i, []) ∧
      exec i { s with opcode := fetchedWord s, pc := s.pc + 2#16, loadOpen := false } = .next t ∧
      t.fault.halted = false :=
  ⟨{ State.reset with pc := 0x0FFE#16 }, .cls, _, rfl, rfl, rfl, rfl, rfl, rfl⟩

theorem witness_StepRunsTheDecodedInstruction_faults :
    ∃ (s : State) (i : Instr) (t : State), s.schedule = [] ∧ s.fault.halted = false ∧ s.pc.toNat = 0x200 ∧
      decode [s.memory.read s.pc.toNat, s.memory.read (s.pc.toNat + 1)] = .ok (i, []) ∧
      exec i { s with opcode := fetchedWord s, pc := s.pc + 2#16, loadOpen := false } = .next t ∧
      t.fault.halted = true :=
  ⟨State.reset.withFetchWord 16 0x00EE, .ret, _, rfl, rfl, rfl, rfl, rfl, rfl⟩

theorem witness_EveryStepAnswersANextState_refused :
    ∃ s : State, s.loadOpen = false ∧ s.schedule = .load [] :: [] :=
  ⟨{ State.reset with loadOpen := false, schedule := [.load []] }, rfl, rfl⟩

theorem witness_ScheduledEventsHappenInOrder : State.reset.loadOpen = true := rfl

theorem witness_LoadCopiesOrRejectsTheImage :
    State.reset.memory.wf = true ∧ (List.replicate 3584 0xFF#8).length ≤ 3584 ∧
    3584 < (List.replicate 3585 0xFF#8).length :=
  ⟨rfl, by rw [List.length_replicate], by rw [List.length_replicate]; decide⟩

theorem witness_LateLoadIsRefused :
    (∃ s t : State, applyEvent (.load (List.replicate 3584 0xFF#8)) s = .next t) ∧
    (∃ s t : State, applyEvent (.load (List.replicate 3585 0xFF#8)) s = .next t) ∧
    (∃ s t : State, s.fault.halted = false ∧ stepCycle s = .next t) ∧ (preAdvanced State.reset).loadOpen = false ∧
    (∃ s t : State, s.loadOpen = false ∧ step s = .next t ∧ t.loadOpen = true) :=
  ⟨⟨State.reset, _, rfl⟩, ⟨State.reset, _, rfl⟩, ⟨State.reset, _, rfl, rfl⟩, rfl,
    ⟨{ State.reset with loadOpen := false, schedule := [.reset 1] }, _, rfl, rfl, rfl⟩⟩

theorem witness_EveryStepKeepsTheFont : ∃ s t : State, s.font ≠ defaultFont ∧ step s = .next t ∧ t.DT ≠ s.DT :=
  ⟨{ State.reset with font := Vector.replicate 80 0#8, DT := 1#8, schedule := [.reset 1] }, _, by decide, rfl, by decide⟩

theorem witness_CallPushesAndJumps :
    ∃ s s' u : State, s.sp.val = 0 ∧ s.sp.val ≠ 16 ∧ s'.sp.val = 15 ∧ s'.sp.val ≠ 16 ∧ u.sp.val = 16 :=
  ⟨working, { working with sp := 15 }, { working with sp := 16 }, by decide⟩

theorem witness_ReturnPopsIntoPc :
    ∃ (s s' u : State) (k k' : Fin 16), s.sp.val = 1 ∧ k.val = s.sp.val - 1 ∧ s'.sp.val = 16 ∧ k'.val = s'.sp.val - 1 ∧
      u.sp.val = 0 :=
  ⟨{ working with sp := 1 }, { working with sp := 16 }, working, 0, 15, by decide⟩

theorem witness_ReturnUndoesCall : ({ working with sp := 15 } : State).sp.val ≠ 16 := by decide

theorem witness_KeySkipsTestTheLowNibble :
    ∃ (s : State) (k : Nibble), k.toNat = (s.getV 2#4).toNat % 16 ∧ s.keyDown k = true ∧ working.keyDown k = false ∧
      k.toNat = (working.getV 2#4).toNat % 16 :=
  ⟨keysDown [0xA#4] working, 0xA#4, by decide⟩

theorem witness_UnmappedWordsDoNothing :
    unmappedWord 0x0001#16 = true ∧ unmappedWord 0x8FFF#16 = true ∧ unmappedWord 0xFFFF#16 = true ∧
    0x8#4 ∈ [0x8#4, 0x9#4, 0xA#4, 0xB#4, 0xC#4, 0xD#4, 0xF#4] ∧
    0xF#4 ∈ [0x8#4, 0x9#4, 0xA#4, 0xB#4, 0xC#4, 0xD#4, 0xF#4] := by decide

theorem witness_UnmappedWordsDoNothing_step :
    ∃ s : State, s.fault.halted = false ∧ s.pc.toNat = 0xFFE ∧ unmappedWord (fetchedWord s) = true :=
  ⟨{ State.reset with pc := 0x0FFE#16 }.withFetchWord 16 0x8008, by decide⟩

theorem witness_UnmappedOutputMarksTheNoOp :
    ∃ s s' : State, (s.pc.toNat = 0xFFE ∧ unmappedOutput s = true) ∧
      (s'.schedule = [.step, .tick] ∧ unmappedOutput s' = true) :=
  ⟨{ State.reset with pc := 0x0FFE#16 }.withFetchWord 16 0x8008,
    { State.reset.withFetchWord 16 0xF100 with schedule := [.step, .tick] }, by decide⟩

theorem witness_DecimalStoreWritesThreeDigits :
    ∃ s s' : State, s.memory.wf = true ∧ s.I.toNat + 2 = 0xFFF ∧ s.I.toNat + 2 ≤ 0xFFF ∧
      s'.memory.wf = true ∧ s'.I.toNat + 2 = 0x1000 ∧ 0xFFF < s'.I.toNat + 2 :=
  ⟨{ working with I := 0x0FFD#16 }, { working with I := 0x0FFE#16 }, by decide⟩

/-- Also for the loads, whose hypotheses are these without the canonical form. -/
theorem witness_RegisterStoreWritesVZeroToVx :
    ∃ s s' : State, s.memory.wf = true ∧ s.I.toNat + (0xF#4).toNat = 0xFFF ∧
      s'.memory.wf = true ∧ s'.I.toNat + (0xF#4).toNat = 0x1000 ∧ s.I.toNat + (0x0#4).toNat ≤ 0xFFF :=
  ⟨{ working with I := 0x0FF0#16 }, { working with I := 0x0FF1#16 }, by decide⟩

theorem witness_RegisterLoadReadsVZeroToVx :
    ∃ s s' : State, s.I.toNat + (0x0#4).toNat = 0xFFF ∧ s'.I.toNat + (0x0#4).toNat = 0x1000 :=
  ⟨{ working with I := 0x0FFF#16 }, { working with I := 0x1000#16 }, by decide⟩

theorem witness_StoredRegistersLoadBack :
    ∃ (s t : State), s.memory.wf = true ∧ s.I.toNat + (0xF#4).toNat = 0xFFF ∧ exec (.ldMemVx 0xF#4) s = .next t ∧
      t.fault.halted = false ∧ (0xF#4).toNat ≤ (0xF#4).toNat :=
  ⟨{ working with I := 0x0FF0#16 }, _, by decide, by decide, rfl, rfl, by decide⟩

/-- A store over both bytes of the next word, over its first, over its second, and by LD B. -/
theorem witness_StoredInstructionIsFetchedNext :
    ∃ (s t u v : State), s.memory.wf = true ∧ exec (.ldMemVx 0x2#4) s = .next t ∧
      storedByte (.ldMemVx 0x2#4) s s.pc.toNat = some 0x0C#8 ∧
      storedByte (.ldMemVx 0x2#4) s (s.pc.toNat + 1) = some 0x1A#8 ∧
      exec (.ldMemVx 0x1#4) s = .next u ∧ storedByte (.ldMemVx 0x1#4) s s.pc.toNat = some 0x0C#8 ∧
      storedByte (.ldMemVx 0x1#4) s (s.pc.toNat + 1) = none ∧
      exec (.ldBVx 0x2#4) s = .next v ∧ storedByte (.ldBVx 0x2#4) s s.pc.toNat = some 2#8 ∧
      storedByte (.ldBVx 0x2#4) s (s.pc.toNat - 2) = none ∧ storedByte (.ldBVx 0x2#4) s (s.pc.toNat + 1) = some 6#8 :=
  ⟨{ working with I := 0x0201#16 }, _, _, _, by decide, rfl, by decide, by decide, rfl, by decide, by decide, rfl,
    by decide, by decide, by decide⟩

theorem witness_DrawIsTheClippedXorBlit :
    ∃ s s' : State, spriteInRange 0xF#4 s ∧ s.I.toNat + (0xF#4).toNat - 1 = 0xFFF ∧ ¬ spriteInRange 0xF#4 s' ∧
      spriteInRange 0x0#4 { s' with I := 0xFFFF#16 } :=
  ⟨{ working with I := 0x0FF1#16 }, { working with I := 0x0FF2#16 }, by decide⟩

/-- A sprite whose top row is that of the glyph 0, drawn at the wrapped corner; VF is the column of the second draw. -/
theorem witness_DrawingTwiceRestoresTheFramebuffer :
    ∃ s s' t : State, spriteInRange 1#4 s ∧ spriteInRange 1#4 s' ∧
      (s.getV 0#4).toNat % 64 = (s'.getV 2#4).toNat % 64 ∧ (s.getV 1#4).toNat % 32 = (s'.getV 1#4).toNat % 32 ∧
      (∀ r, r < (1#4).toNat → s.memory.read (s.I.toNat + r) = s'.memory.read (s'.I.toNat + r)) ∧
      exec (.drwVxVyN 0#4 1#4 1#4) s = .next t ∧ s'.video = t.video := by
  refine ⟨{ regs [(0#4, 0x7E#8), (1#4, 0xFF#8)] with I := 0x0050#16 },
    { drawSprite 0#4 1#4 1#4 { regs [(0#4, 0x7E#8), (1#4, 0xFF#8)] with I := 0x0050#16 } with
      V := (regs [(2#4, 0x3E#8), (1#4, 0x1F#8)]).V }, _, by decide, ?_, by decide, by decide, ?_, rfl, rfl⟩
  · exact .inr (by decide)
  · intro r hr
    obtain rfl : r = 0 := by simpa using hr
    rfl

theorem witness_KeyWaitStoresTheLowestKeyOrStays :
    ∃ s : State, s.keyDown 3#4 = true ∧ (∀ j : Nibble, j.toNat < (3#4).toNat → s.keyDown j = false) ∧
      (∀ k : Nibble, working.keyDown k = false) :=
  ⟨keysDown [9#4, 3#4] working, by decide⟩

theorem witness_ExactlyTheListedConditionsFault :
    (∃ s, faultOf (.call 0x300#12) s = some (.stackOverflow, 0)) ∧ (∃ s, faultOf .ret s = some (.stackUnderflow, 0)) ∧
    (∃ s, faultOf (.drwVxVyN 0#4 1#4 2#4) s = some (.memData, 0x1000)) ∧
    (∃ s, faultOf (.ldBVx 3#4) s = some (.memData, 0x1000)) ∧
    (∃ s, faultOf (.ldMemVx 1#4) s = some (.memData, 0x1000)) ∧
    (∃ s, faultOf (.ldVxMem 0#4) s = some (.memData, 0x1000)) ∧
    (∃ s, faultOf (.drwVxVyN 0#4 1#4 1#4) s = none ∧ faultOf (.ldMemVx 0#4) s = none ∧ s.I.toNat = 0xFFF) ∧
    (∃ s : State, s.fault.halted = false ∧ s.pc.toNat = 0xFFF) ∧
    (∃ s t : State, s.fault.halted = false ∧ s.pc.toNat = 0xFFE ∧ stepCycle s = .next t ∧ t.fault.halted = true) :=
  ⟨⟨{ working with sp := 16 }, by decide⟩, ⟨working, by decide⟩, ⟨{ working with I := 0x0FFF#16 }, by decide⟩,
    ⟨{ working with I := 0x0FFE#16 }, by decide⟩, ⟨{ working with I := 0x0FFF#16 }, by decide⟩,
    ⟨{ working with I := 0x1000#16 }, by decide⟩, ⟨{ working with I := 0x0FFF#16 }, by decide⟩,
    ⟨{ working with pc := 0x0FFF#16 }, by decide⟩,
    ⟨{ State.reset with pc := 0x0FFE#16 }.withFetchWord 16 0x00EE, _, by decide, by decide, rfl, by decide⟩⟩

/-- A fault of an instruction and a fault of a fetch. -/
theorem witness_FaultsArePreciseAndAtomic :
    (∃ s t : State, s.fault.halted = false ∧ stepCycle s = .next t ∧ t.fault.halted = true ∧ s.pc.toNat = 0x200) ∧
    (∃ s t : State, s.fault.halted = false ∧ stepCycle s = .next t ∧ t.fault.halted = true ∧ s.pc.toNat = 0x1000) :=
  ⟨⟨State.reset.withFetchWord 16 0x00EE, _, rfl, rfl, rfl, rfl⟩, ⟨{ State.reset with pc := 0x1000#16 }, _, rfl, rfl, rfl, rfl⟩⟩

theorem witness_HaltedUntilReset :
    haltedState.fault.halted = true ∧ (∀ seed, Event.tick ≠ .reset seed) ∧ ∃ t, applyEvent .tick haltedState = .next t :=
  ⟨rfl, fun _ h => (nomatch h), _, rfl⟩

/-- One instruction that faults, and of those that do not one of each shape of the table. -/
theorem witness_PcAfterEachInstruction :
    (∃ s t, exec .ret s = .next t ∧ faultOf .ret s ≠ none) ∧
    (∃ s t, exec .ret s = .next t ∧ faultOf .ret s = none) ∧
    (∃ s t, exec (.jpV0 0xFFF#12) s = .next t ∧ faultOf (.jpV0 0xFFF#12) s = none ∧ s.getV 0#4 = 0xFF#8) ∧
    (∃ s t, exec (.skpVx 2#4) s = .next t ∧ faultOf (.skpVx 2#4) s = none ∧
      (0xA#4).toNat = (s.getV 2#4).toNat % 16 ∧ s.keyDown 0xA#4 = true) ∧
    (∃ s t, exec (.ldVxK 2#4) s = .next t ∧ faultOf (.ldVxK 2#4) s = none ∧ ∀ k, s.keyDown k = false) :=
  ⟨⟨working, _, rfl, by decide⟩, ⟨{ working with sp := 1 }, _, rfl, by decide⟩,
    ⟨regs [(0#4, 0xFF#8)], _, rfl, rfl, by decide⟩, ⟨keysDown [0xA#4] working, _, rfl, rfl, by decide, by decide⟩,
    ⟨working, _, rfl, rfl, by decide⟩⟩

/-- A destination, a flag, and a register below x. -/
theorem witness_RegistersChangeOnlyAsNamed :
    (∃ t, exec (.addVxVy 0#4 0#4) working = .next t ∧ t.getV 0#4 ≠ working.getV 0#4) ∧
    (∃ s t, exec (.addVxVy 0#4 0#4) s = .next t ∧ t.getV 0xF#4 ≠ s.getV 0xF#4) ∧
    (∃ t, exec (.ldVxMem 2#4) working = .next t ∧ t.getV 1#4 ≠ working.getV 1#4) :=
  ⟨⟨_, rfl, by decide⟩, ⟨regs [(0#4, 0x80#8)], _, rfl, by decide⟩, ⟨_, rfl, by decide⟩⟩

/-- A next state in which the named field did change, for each clause with a premise. -/
theorem witness_OtherStateChangesOnlyAsNamed :
    (∃ t, exec (.addIVx 2#4) working = .next t ∧ t.I ≠ working.I) ∧
    (∃ t, exec (.call 0x300#12) working = .next t ∧ t.stack ≠ working.stack ∧ t.sp ≠ working.sp) ∧
    (∃ t, exec (.ldDtVx 2#4) working = .next t ∧ t.DT ≠ working.DT) ∧
    (∃ t, exec (.ldStVx 2#4) working = .next t ∧ t.ST ≠ working.ST) ∧
    (∃ s t, exec .cls s = .next t ∧ t.video ≠ s.video) ∧
    (∃ t, exec (.ldMemVx 2#4) working = .next t ∧ t.memory ≠ working.memory) ∧
    (∃ t, exec (.rndVxKk 2#4 0#8) working = .next t ∧ t.rng ≠ working.rng) :=
  ⟨⟨_, rfl, by decide⟩, ⟨_, rfl, by decide, by decide⟩, ⟨_, rfl, by decide⟩, ⟨_, rfl, by decide⟩,
    ⟨pixelsOn [0] working, _, rfl, fun h => by
      have := congrArg (fun v : Video => v[0]) h
      exact absurd this (by decide +kernel)⟩, ⟨_, rfl, by decide⟩, ⟨_, rfl, by decide⟩⟩

theorem witness_StepsDoNotCountTimers :
    (∃ s t, stepCycle s = .next t ∧ t.DT ≠ s.DT) ∧ (∃ s t, stepCycle s = .next t ∧ t.ST ≠ s.ST) :=
  ⟨⟨(regs [(0#4, 7#8)]).withFetchWord 16 0xF015, _, rfl, by decide⟩,
    ⟨(regs [(0#4, 7#8)]).withFetchWord 16 0xF018, _, rfl, by decide⟩⟩

theorem witness_NoInstructionReadsTheSoundTimer : ∃ t, exec (.ldStVx 2#4) working = .next t := ⟨_, rfl⟩

theorem witness_OnlyRndObservesTheRandomSource :
    ∃ t, (∀ x kk, Instr.ldVxDt 2#4 ≠ .rndVxKk x kk) ∧ exec (.ldVxDt 2#4) working = .next t :=
  ⟨_, fun _ _ h => (nomatch h), rfl⟩

theorem witness_EveryStepKeepsMemoryCanonical :
    ∃ s t : State, s.memory.wf = true ∧ step s = .next t ∧ t.memory ≠ s.memory :=
  ⟨working.withFetchWord 16 0xF255, _, by decide, rfl, by decide⟩

theorem witness_CanonicalMemoriesReadingAlikeAreEqual :
    ∃ m m' : Memory, m.wf = true ∧ m'.wf = true ∧ m ≠ [] ∧ ∀ a, m.read a = m'.read a :=
  ⟨[(0x300, 1#8)], Memory.write [] 0x300 1#8, by decide, by decide, by decide, fun _ => rfl⟩

/-- pc and a live stack entry at their bounds. -/
theorem witness_EveryStepKeepsPcAndStackBounded :
    ∃ s t : State, PcAndStackBounded s ∧ step s = .next t ∧ s.pc.toNat = 0x10FE ∧ s.stack[0].toNat = 0x1000 :=
  ⟨{ State.reset with pc := 0x10FE#16, sp := 1, stack := State.reset.stack.set 0 0x1000#16 }, _,
    by unfold PcAndStackBounded; decide, rfl, by decide, by decide⟩

/-- From a state that is not halted to one that is. -/
theorem witness_EveryStepKeepsTheFaultRecordTruthful :
    ∃ s t : State, FaultRecordTruthful s ∧ step s = .next t ∧ t.fault.halted = true :=
  ⟨State.reset.withFetchWord 16 0x00EE, _, ⟨fun _ => rfl, fun h => (nomatch h), rfl⟩, rfl, rfl⟩

/-- A truthful record of MEM_DATA at the ends of its row: DRW with n = 1, LD [I] with x = 0xF. -/
theorem witness_FaultRecordTruthful_memData :
    FaultRecordTruthful { State.reset with I := 0x1000#16, fault := record .memData 0x0200#16 0xD011#16 0x1000#17 } ∧
    FaultRecordTruthful { State.reset with I := 0xFFFF#16, fault := record .memData 0x0200#16 0xFF55#16 0x1000E#17 } :=
  ⟨⟨fun h => (nomatch h), fun _ => rfl, rfl, by decide, .inl ⟨0#4, 1#4, 1#4, rfl, by decide, rfl⟩⟩,
    ⟨fun h => (nomatch h), fun _ => rfl, rfl, by decide, .inr (.inr (.inl ⟨0xF#4, rfl, rfl⟩))⟩⟩

/-- A truthful record of a fault. -/
theorem witness_FaultRecordTruthful_halted : FaultRecordTruthful haltedState :=
  ⟨fun h => (nomatch h), fun _ => rfl, rfl, rfl, rfl, rfl⟩

theorem witness_ZeroedMemoryRunsAsClear :
    ∃ s : State, s.fault.halted = false ∧ s.pc.toNat = 0xFFE ∧ s.memory.read s.pc.toNat = 0x00#8 ∧
      s.memory.read (s.pc.toNat + 1) = 0x00#8 :=
  ⟨{ State.reset with pc := 0x0FFE#16 }, by decide⟩

theorem witness_EndOfRunIsStable :
    (State.reset.withFetchWord 16 0x1200).schedule = [] ∧ EndOfRun (State.reset.withFetchWord 16 0x1200) = true := by
  decide

end Sys2Proof.Tests
end

section
/-! What every instruction leaves unchanged, what each event does, and from these the statements O9 and O59. -/

namespace Sys2Proof.Proofs

open Sys2Proof Sys2Proof.Machine

/-! ## The frame of `exec` -/

/-- The fields that no instruction writes: the keys (R30), the latch (R40), the machine's FONT (R5), and the model's
own two. -/
structure FrameKept (s t : State) : Prop where
  key : t.key = s.key
  opcode : t.opcode = s.opcode
  font : t.font = s.font
  schedule : t.schedule = s.schedule
  loadOpen : t.loadOpen = s.loadOpen

theorem skipIf_frameKept (c : Bool) (s : State) : FrameKept s (skipIf c s) :=
  ⟨skipIf_key s c, skipIf_opcode s c, skipIf_font s c, skipIf_schedule s c, skipIf_loadOpen s c⟩

theorem takeFault_frameKept (c : Cause) (fpc fop : Word) (a : Nat) (s : State) :
    FrameKept s (takeFault c fpc fop a s) :=
  ⟨rfl, rfl, rfl, rfl, rfl⟩

theorem drawSprite_frameKept (x y n : Nibble) (s : State) : FrameKept s (drawSprite x y n s) :=
  ⟨rfl, rfl, rfl, rfl, rfl⟩

/-- An access that goes on to a state with the frame kept keeps it when it faults, too (R66, R234). -/
theorem checkRange_answers_frameKept (last : Nat) {s u : State} (hu : FrameKept s u) :
    ∃ t, checkRange last s (.next u) = .next t ∧ FrameKept s t := by
  rw [checkRange_eq]
  split
  · exact ⟨u, rfl, hu⟩
  · exact ⟨_, rfl, takeFault_frameKept _ _ _ _ s⟩

theorem execRet_answers_frameKept (s : State) : ∃ t, execRet s = .next t ∧ FrameKept s t := by
  unfold execRet
  split
  · exact ⟨_, rfl, takeFault_frameKept _ _ _ _ s⟩
  · exact ⟨_, rfl, rfl, rfl, rfl, rfl, rfl⟩

theorem execCall_answers_frameKept (nnn : Addr) (s : State) : ∃ t, execCall nnn s = .next t ∧ FrameKept s t := by
  unfold execCall
  split
  · exact ⟨_, rfl, takeFault_frameKept _ _ _ _ s⟩
  · exact ⟨_, rfl, rfl, rfl, rfl, rfl, rfl⟩

theorem execDrwVxVyN_answers_frameKept (x y n : Nibble) (s : State) :
    ∃ t, execDrwVxVyN x y n s = .next t ∧ FrameKept s t := by
  unfold execDrwVxVyN
  split
  · exact ⟨_, rfl, drawSprite_frameKept x y n s⟩
  · exact checkRange_answers_frameKept _ (drawSprite_frameKept x y n s)

theorem execLdVxK_answers_frameKept (x : Nibble) (s : State) : ∃ t, execLdVxK x s = .next t ∧ FrameKept s t := by
  unfold execLdVxK
  split
  · exact ⟨_, rfl, rfl, rfl, rfl, rfl, rfl⟩
  · exact ⟨_, rfl, rfl, rfl, rfl, rfl, rfl⟩

/-- Every instruction answers a next state, faulting or not, and leaves the frame as it was. -/
theorem exec_answers_frameKept (i : Instr) (s : State) : ∃ t, exec i s = .next t ∧ FrameKept s t := by
  cases i with
  | ret => exact execRet_answers_frameKept s
  | call nnn => exact execCall_answers_frameKept nnn s
  | drwVxVyN x y n => exact execDrwVxVyN_answers_frameKept x y n s
  | ldVxK x => exact execLdVxK_answers_frameKept x s
  | ldBVx | ldMemVx | ldVxMem => exact checkRange_answers_frameKept _ ⟨rfl, rfl, rfl, rfl, rfl⟩
  | seVxKk | sneVxKk | seVxVy | sneVxVy | skpVx | sknpVx => exact ⟨_, rfl, skipIf_frameKept _ s⟩
  | cls | jp | jpV0 | ldVxKk | addVxKk | ldVxVy | orVxVy | andVxVy | xorVxVy | addVxVy | subVxVy | shrVx | subnVxVy
  | shlVx | ldIAddr | rndVxKk | ldVxDt | ldDtVx | ldStVx | addIVx | ldFVx | nopUnmapped =>
    exact ⟨_, rfl, rfl, rfl, rfl, rfl, rfl⟩

theorem exec_frameKept {i : Instr} {s t : State} (h : exec i s = .next t) : FrameKept s t := by
  obtain ⟨u, hu, hframe⟩ := exec_answers_frameKept i s
  obtain rfl : u = t := Host.Outcome.next.inj (hu.symm.trans h)
  exact hframe

/-! ## The events -/

/-- A Load goes on exactly where one is admitted (R274, log entry 9). -/
theorem loadEvent_next_iff (b : List Byte) (s t : State) :
    loadEvent b s = .next t ↔ s.loadOpen = true ∧ t = load b s := by
  unfold loadEvent
  split
  · next h => simp [h, eq_comm]
  · next h => simp [h]

/-- The event at the head of the schedule is performed on the state with the rest of it (R9). -/
theorem step_scheduled (s : State) (e : Event) (rest : List Event) :
    step { s with schedule := e :: rest } = applyEvent e { s with schedule := rest } :=
  step_cons _ e rest rfl

/-- FONT through the three cases of R91; the handler starts in a state with the same FONT. -/
theorem stepCycle_font {s t : State} (h : stepCycle s = .next t) : t.font = s.font := by
  obtain ⟨-, rfl⟩ | ⟨-, -, rfl⟩ | ⟨-, -, hcommit⟩ := (stepCycle_next_iff s t).mp h
  · rfl
  · exact faultedStep_font s _
  · obtain ⟨u, hexec, ⟨-, rfl⟩ | ⟨-, rfl⟩⟩ := (commit_next_iff s t _).mp hcommit
    · exact faultedStep_font s _
    · exact (exec_frameKept hexec).font.trans (preAdvanced_font s)

theorem applyEvent_font {e : Event} {s t : State} (h : applyEvent e s = .next t) : t.font = s.font := by
  cases e with
  | step => exact stepCycle_font h
  | load b =>
    obtain ⟨-, rfl⟩ := (loadEvent_next_iff b s t).mp h
    exact load_font s b
  | reset seed => cases h; exact resetEvent_font s seed
  | tick => cases h; exact tick_font s
  | setKey k p => cases h; exact setKey_font s k p
  | readFramebuffer => cases h; rfl

/-! ## The statements -/

/-- Settles O59: the event that is due keeps FONT, and it is all that a step performs. -/
theorem everyStepKeepsTheFont : Obligations.EveryStepKeepsTheFont := by
  intro s t h
  rw [step_due] at h
  have hkept := applyEvent_font h
  exact hkept

/-- Settles O9: each event's arm of `applyEvent`, on the state with the rest of the schedule. -/
theorem scheduledEventsHappenInOrder : Obligations.ScheduledEventsHappenInOrder := by
  intro s rest k p seed
  simp only [step_scheduled]
  refine ⟨rfl, rfl, rfl, rfl, fun hopen b => ?_, rfl⟩
  exact (loadEvent_next_iff b _ _).mpr ⟨hopen, rfl⟩

end Sys2Proof.Proofs
end

section
/-! Where each instruction faults and what it leaves, field by field (spec/10_state.md); the bounds of pc and the live
stack entries; from these the statements O14, O44 to O46, O48 to O50 and O53 to O55. -/

namespace Sys2Proof.Proofs

open Sys2Proof Sys2Proof.Machine Sys2Proof.Claims

/-! ## Faulting and completing: `exec` by `faultOf` -/

/-- The instructions fault where the rows of R231 say, and the fault is all they do. -/
theorem exec_of_faultOf_some {i : Instr} {s : State} {c : Cause} {a : Nat} (h : faultOf i s = some (c, a)) :
    exec i s = .next (takeFault c (s.pc - 2#16) s.opcode a s) := by
  cases i with
  | ret =>
    obtain ⟨hempty, hrow⟩ := Option.ite_none_right_eq_some.mp h
    cases hrow
    exact dif_pos hempty
  | call nnn =>
    obtain ⟨hfull, hrow⟩ := Option.ite_none_right_eq_some.mp h
    cases hrow
    exact dif_pos hfull
  | drwVxVyN x y n =>
    obtain ⟨⟨hrows, hlast⟩, hrow⟩ := Option.ite_none_right_eq_some.mp h
    cases hrow
    have hn : n.toNat ≠ 0 := by omega
    have hlastAddr : effectiveAddr s (n.toNat - 1) = s.I.toNat + n.toNat - 1 := by unfold effectiveAddr; omega
    rw [exec, execDrwVxVyN, if_neg hn, hlastAddr]
    exact if_pos hlast
  | ldBVx | ldMemVx | ldVxMem =>
    obtain ⟨hlast, hrow⟩ := Option.ite_none_right_eq_some.mp h
    cases hrow
    exact if_pos hlast
  | _ => cases h

/-- An instruction that answers with no fault recorded did not fault. -/
theorem faultOf_eq_none {i : Instr} {s t : State} (h : exec i s = .next t) (hrun : t.fault.halted = false) :
    faultOf i s = none := by
  rcases hf : faultOf i s with _ | ⟨c, a⟩
  · rfl
  · rw [exec_of_faultOf_some hf] at h
    cases h
    cases hrun

/-- RET with an entry live (R120). -/
theorem exec_ret {s : State} (h : faultOf .ret s = none) :
    ∃ k : Fin 16, k.val + 1 = s.sp.val ∧ exec .ret s = .next { s with sp := k.castSucc, pc := s.stack[k] } := by
  have hlive : s.sp.val ≠ 0 := by simpa [faultOf] using h
  have hsp := s.sp.isLt
  exact ⟨⟨s.sp.val - 1, by omega⟩, Nat.succ_pred hlive, dif_neg hlive⟩

/-- CALL with a slot free (R122). -/
theorem exec_call {nnn : Addr} {s : State} (h : faultOf (.call nnn) s = none) :
    ∃ k : Fin 16, k.val = s.sp.val ∧
      exec (.call nnn) s = .next { s with stack := s.stack.set k.val s.pc, sp := k.succ, pc := zextAddr nnn } := by
  have hroom : s.sp.val ≠ 16 := by simpa [faultOf] using h
  have hsp := s.sp.isLt
  exact ⟨⟨s.sp.val, by omega⟩, rfl, dif_neg hroom⟩

/-- DRW with no row, or with its rows inside memory (R192, R193). -/
theorem exec_drwVxVyN {x y n : Nibble} {s : State} (h : faultOf (.drwVxVyN x y n) s = none) :
    exec (.drwVxVyN x y n) s = .next (drawSprite x y n s) := by
  have hrange : 0 < n.toNat → s.I.toNat + n.toNat - 1 ≤ 0xFFF := by simpa [faultOf] using h
  rw [exec, execDrwVxVyN]
  split
  · rfl
  · next hn => exact if_neg (by unfold effectiveAddr; omega)

/-- LD B with its three bytes inside memory (R173). -/
theorem exec_ldBVx {x : Nibble} {s : State} (h : faultOf (.ldBVx x) s = none) :
    exec (.ldBVx x) s = .next { s with memory := s.memory.writeBytes s.I.toNat (bcdDigits (s.getV x)) } := by
  have hrange : ¬ 0xFFF < s.I.toNat + 2 := by simpa [faultOf] using h
  exact if_neg hrange

/-- LD [I] with its bytes inside memory (R174). -/
theorem exec_ldMemVx {x : Nibble} {s : State} (h : faultOf (.ldMemVx x) s = none) :
    exec (.ldMemVx x) s = .next { s with memory := s.memory.writeBytes s.I.toNat (registersUpTo s x) } := by
  have hrange : ¬ 0xFFF < s.I.toNat + x.toNat := by simpa [faultOf] using h
  exact if_neg hrange

/-- LD Vx, [I] with its bytes inside memory (R175). -/
theorem exec_ldVxMem {x : Nibble} {s : State} (h : faultOf (.ldVxMem x) s = none) :
    exec (.ldVxMem x) s = .next { s with V := writeRegs s.V 0 (s.memory.readBytes s.I.toNat (x.toNat + 1)) } := by
  have hrange : ¬ 0xFFF < s.I.toNat + x.toNat := by simpa [faultOf] using h
  exact if_neg hrange

/-- LD Vx, K: the smallest pressed key, or the pre-advance undone (R212). -/
theorem exec_ldVxK_next_iff (x : Nibble) (s t : State) :
    exec (.ldVxK x) s = .next t ↔
      (∃ k, lowestPressedKey s = some k ∧ t = s.setV x (k.setWidth 8)) ∨
      (lowestPressedKey s = none ∧ t = { s with pc := s.pc - 2#16 }) := by
  rw [exec, execLdVxK]
  split
  · next k hk => simp [hk, eq_comm]
  · next hk => simp [hk, eq_comm]

/-! ## pc -/

@[simp] theorem zextAddr_toNat (nnn : Addr) : (zextAddr nnn).toNat = nnn.toNat := by
  have := nnn.isLt
  simp [zextAddr]
  omega

/-- nnn + V0 does not wrap (R123). -/
@[simp] theorem jumpV0Target_toNat (nnn : Addr) (s : State) :
    (jumpV0Target nnn s).toNat = nnn.toNat + (s.getV 0x0#4).toNat := by
  have := nnn.isLt
  have := (s.getV 0x0#4).isLt
  simp [jumpV0Target, zextByte]
  omega

theorem eq_keyIndex {k : Nibble} {v : Byte} (h : k.toNat = v.toNat % 16) : k = keyIndex v := by
  apply BitVec.eq_of_toNat_eq
  simpa [keyIndex] using h

theorem lowestPressedKey_ne_none {s : State} (h : ∃ k, s.keyDown k = true) : lowestPressedKey s ≠ none := by
  obtain ⟨k, hk⟩ := h
  intro hnone
  simp [(lowestPressedKey_none s).mp hnone k] at hk

/-- Settles O44: a fault leaves pc at the instruction, and each completed arm of `exec` shows what it leaves in pc. -/
theorem pcAfterEachInstruction : Obligations.PcAfterEachInstruction := by
  intro i s t h
  constructor
  · intro hfaults
    obtain ⟨⟨c, a⟩, hf⟩ := Option.ne_none_iff_exists'.mp hfaults
    rw [exec_of_faultOf_some hf] at h
    cases h
    rfl
  · intro hok
    cases i with
    | jp nnn => cases h; exact zextAddr_toNat nnn
    | jpV0 nnn => cases h; exact jumpV0Target_toNat nnn s
    | call nnn =>
      obtain ⟨k, -, hcall⟩ := exec_call hok
      rw [hcall] at h
      cases h
      exact zextAddr_toNat nnn
    | ret =>
      obtain ⟨top, htop, hret⟩ := exec_ret hok
      rw [hret] at h
      cases h
      intro k hk
      obtain rfl : k = top := Fin.ext (by omega)
      rfl
    | seVxKk | seVxVy | sneVxKk | sneVxVy => cases h; simp [bne]
    | skpVx x =>
      cases h
      intro k hk
      rw [eq_keyIndex hk]
      exact skipIf_pc s _
    | sknpVx x =>
      cases h
      intro k hk
      rw [eq_keyIndex hk, skipIf_pc]
      cases s.keyDown (keyIndex (s.getV x)) <;> rfl
    | ldVxK x =>
      obtain ⟨k, hk, rfl⟩ | ⟨hnone, rfl⟩ := (exec_ldVxK_next_iff x s t).mp h
      · have hdown := ((lowestPressedKey_some s k).mp hk).1
        exact ⟨fun _ => rfl, fun hup => by simp [hup k] at hdown⟩
      · exact ⟨fun hdown => absurd hnone (lowestPressedKey_ne_none hdown), fun _ => rfl⟩
    | drwVxVyN => rw [exec_drwVxVyN hok] at h; cases h; rfl
    | ldBVx => rw [exec_ldBVx hok] at h; cases h; rfl
    | ldMemVx => rw [exec_ldMemVx hok] at h; cases h; rfl
    | ldVxMem => rw [exec_ldVxMem hok] at h; cases h; rfl
    | _ => cases h; rfl

/-! ## The registers -/

theorem eq_of_getV_setV_ne {s : State} {x j : Nibble} {v : Byte} (h : (s.setV x v).getV j ≠ s.getV j) : j = x := by
  by_contra hne
  exact h (getV_setV_ne s v hne)

theorem eq_of_getV_setResultFlag_ne {s : State} {x j : Nibble} {r f : Byte}
    (h : (s.setResultFlag x r f).getV j ≠ s.getV j) : j = x ∨ j = 0xF#4 := by
  by_contra hne
  obtain ⟨hx, hF⟩ := not_or.mp hne
  exact h (by rw [getV_setResultFlag, if_neg hF, if_neg hx])

/-- Registers above the last byte's stay (R175). -/
theorem getElem_writeRegs_of_le {V : Vector Byte 16} {bs : List Byte} {j : Nat} (hj : j < 16) (h : bs.length ≤ j) :
    (writeRegs V 0 bs)[j] = V[j] := by
  rw [writeRegs_getElem, dif_neg (by omega)]

/-- Settles O45: a fault keeps the registers, and a completed arm of `exec` writes x, x and then VF, VF alone, or V0 to
Vx. -/
theorem registersChangeOnlyAsNamed : Obligations.RegistersChangeOnlyAsNamed := by
  intro i s t j h hj
  rcases hok : faultOf i s with _ | ⟨c, a⟩
  case some =>
    rw [exec_of_faultOf_some hok] at h
    cases h
    exact absurd (getV_takeFault ..) hj
  cases i with
  | ldVxKk | addVxKk | ldVxVy | orVxVy | andVxVy | xorVxVy | ldVxDt => cases h; exact eq_of_getV_setV_ne hj
  | rndVxKk => cases h; exact eq_of_getV_setV_ne hj
  | addVxVy | subVxVy | shrVx | subnVxVy | shlVx => cases h; exact eq_of_getV_setResultFlag_ne hj
  | drwVxVyN => rw [exec_drwVxVyN hok] at h; cases h; exact eq_of_getV_setV_ne hj
  | ldVxK x =>
    obtain ⟨k, -, rfl⟩ | ⟨-, rfl⟩ := (exec_ldVxK_next_iff x s t).mp h
    · exact eq_of_getV_setV_ne hj
    · exact absurd rfl hj
  | ldVxMem x =>
    rw [exec_ldVxMem hok] at h
    cases h
    by_contra hgt
    exact hj (getElem_writeRegs_of_le j.isLt (by rw [readBytes_length]; omega))
  | seVxKk | sneVxKk | seVxVy | sneVxVy | skpVx | sknpVx => cases h; exact hj (getV_skipIf ..)
  | ret => obtain ⟨k, -, hret⟩ := exec_ret hok; rw [hret] at h; cases h; exact hj rfl
  | call => obtain ⟨k, -, hcall⟩ := exec_call hok; rw [hcall] at h; cases h; exact hj rfl
  | ldBVx => rw [exec_ldBVx hok] at h; cases h; exact hj rfl
  | ldMemVx => rw [exec_ldMemVx hok] at h; cases h; exact hj rfl
  | _ => cases h; exact hj rfl

/-! ## The other state -/

/-- Settles O46: the frame that every instruction keeps gives the keys, the latch, FONT and the schedule; the other
fields are read off each arm of `exec`. -/
theorem otherStateChangesOnlyAsNamed : Obligations.OtherStateChangesOnlyAsNamed := by
  intro i s t h
  obtain ⟨hkey, hopcode, hfont, hschedule, -⟩ := exec_frameKept h
  simp only [hkey, hopcode, hfont, hschedule, true_and, and_true]
  rcases hok : faultOf i s with _ | ⟨c, a⟩
  case some => rw [exec_of_faultOf_some hok] at h; cases h; simp
  cases i with
  | ret => obtain ⟨k, -, hret⟩ := exec_ret hok; rw [hret] at h; cases h; simp
  | call => obtain ⟨k, -, hcall⟩ := exec_call hok; rw [hcall] at h; cases h; simp
  | drwVxVyN => rw [exec_drwVxVyN hok] at h; cases h; simp
  | ldBVx => rw [exec_ldBVx hok] at h; cases h; simp
  | ldMemVx => rw [exec_ldMemVx hok] at h; cases h; simp
  | ldVxMem => rw [exec_ldVxMem hok] at h; cases h; simp
  | ldVxK x => obtain ⟨k, -, rfl⟩ | ⟨-, rfl⟩ := (exec_ldVxK_next_iff x s t).mp h <;> simp
  | _ => cases h; simp

section
variable {i : Instr} {s t : State} (h : exec i s = .next t)
include h

theorem exec_stack (hcall : ∀ nnn, i ≠ .call nnn) : t.stack = s.stack := by
  obtain ⟨-, hstack, -⟩ := otherStateChangesOnlyAsNamed i s t h
  by_contra hne
  obtain ⟨nnn, rfl⟩ := hstack hne
  exact hcall nnn rfl

theorem exec_sp (hcall : ∀ nnn, i ≠ .call nnn) (hret : i ≠ .ret) : t.sp = s.sp := by
  obtain ⟨-, -, hsp, -⟩ := otherStateChangesOnlyAsNamed i s t h
  by_contra hne
  obtain ⟨nnn, rfl⟩ | rfl := hsp hne
  · exact hcall nnn rfl
  · exact hret rfl

theorem exec_ST (hst : ∀ x, i ≠ .ldStVx x) : t.ST = s.ST := by
  obtain ⟨-, -, -, -, hST, -⟩ := otherStateChangesOnlyAsNamed i s t h
  by_contra hne
  obtain ⟨x, rfl⟩ := hST hne
  exact hst x rfl

theorem exec_rng (hrnd : ∀ x kk, i ≠ .rndVxKk x kk) : t.rng = s.rng := by
  obtain ⟨-, -, -, -, -, -, -, -, hrng, -⟩ := otherStateChangesOnlyAsNamed i s t h
  by_contra hne
  obtain ⟨x, kk, rfl⟩ := hrng hne
  exact hrnd x kk rfl

end

/-! ## ST and the random source are not read -/

theorem skipIf_withHidden (c : Bool) (s : State) (v : Byte) (n : RngState) :
    skipIf c { s with ST := v, rng := n } = { skipIf c s with ST := v, rng := n } := by
  cases c <;> rfl

/-- Two runs: an instruction other than LD ST and RND does the same with another ST and another random source, and
leaves both. -/
theorem exec_withHidden {i : Instr} {s t : State} (v : Byte) (n : RngState) (hst : ∀ x, i ≠ .ldStVx x)
    (hrnd : ∀ x kk, i ≠ .rndVxKk x kk) (h : exec i s = .next t) :
    exec i { s with ST := v, rng := n } = .next { t with ST := v, rng := n } := by
  have hfaultOf : faultOf i { s with ST := v, rng := n } = faultOf i s := by cases i <;> rfl
  rcases hok : faultOf i s with _ | ⟨c, a⟩ <;> rw [hok] at hfaultOf
  case some =>
    rw [exec_of_faultOf_some hok] at h
    cases h
    exact exec_of_faultOf_some hfaultOf
  cases i with
  | ldStVx x => exact absurd rfl (hst x)
  | rndVxKk x kk => exact absurd rfl (hrnd x kk)
  | seVxKk | sneVxKk | seVxVy | sneVxVy | skpVx | sknpVx =>
    cases h
    exact congrArg Host.Outcome.next (skipIf_withHidden _ s v n)
  | ret =>
    obtain ⟨k, hk, hret⟩ := exec_ret hok
    obtain ⟨k', hk', hret'⟩ := exec_ret hfaultOf
    obtain rfl : k' = k := Fin.ext (Nat.succ.inj (hk'.trans hk.symm))
    rw [hret] at h
    cases h
    exact hret'
  | call nnn =>
    obtain ⟨k, hk, hcall⟩ := exec_call hok
    obtain ⟨k', hk', hcall'⟩ := exec_call hfaultOf
    obtain rfl : k' = k := Fin.ext (hk'.trans hk.symm)
    rw [hcall] at h
    cases h
    exact hcall'
  | ldVxK x =>
    refine (exec_ldVxK_next_iff x _ _).mpr ?_
    obtain ⟨k, hk, rfl⟩ | ⟨hnone, rfl⟩ := (exec_ldVxK_next_iff x s t).mp h
    · exact .inl ⟨k, hk, rfl⟩
    · exact .inr ⟨hnone, rfl⟩
  | drwVxVyN => rw [exec_drwVxVyN hok] at h; cases h; exact exec_drwVxVyN hfaultOf
  | ldBVx => rw [exec_ldBVx hok] at h; cases h; exact exec_ldBVx hfaultOf
  | ldMemVx => rw [exec_ldMemVx hok] at h; cases h; exact exec_ldMemVx hfaultOf
  | ldVxMem => rw [exec_ldVxMem hok] at h; cases h; exact exec_ldVxMem hfaultOf
  | _ => cases h; rfl

/-- Settles O48: LD ST and RND by their arms, every other instruction by its two runs with the same random source. -/
theorem noInstructionReadsTheSoundTimer : Obligations.NoInstructionReadsTheSoundTimer := by
  intro i s t v h
  have hother (hst : ∀ x, i ≠ .ldStVx x) (hrnd : ∀ x kk, i ≠ .rndVxKk x kk) :
      exec i { s with ST := v } = .next { t with ST := v } := by
    rw [exec_withHidden v s.rng hst hrnd h, ← exec_rng h hrnd]
  cases i with
  | ldStVx | rndVxKk => cases h; rfl
  | _ => exact hother nofun nofun

/-- Settles O49: LD ST by its arm, every other instruction by its two runs with the same ST. -/
theorem onlyRndObservesTheRandomSource : Obligations.OnlyRndObservesTheRandomSource := by
  intro i s t n hrnd h
  by_cases hst : ∃ x, i = .ldStVx x
  · obtain ⟨x, rfl⟩ := hst
    cases h
    rfl
  · have hst' : ∀ x, i ≠ .ldStVx x := not_exists.mp hst
    rw [exec_withHidden s.ST n hst' hrnd h, ← exec_ST h hst']

/-! ## Reset -/

/-- Settles O14: field by field, and the memory of any FONT as it reads (R45). -/
theorem resetLeavesTheStatedValues : Obligations.ResetLeavesTheStatedValues := by
  refine ⟨fun x => ?_, rfl, rfl, fun k => ?_, rfl, rfl, rfl, fun k => ?_, fun p hp => ?_, rfl, rfl,
    fun font seed => ⟨⟨_, rfl⟩, resetWith_read font seed⟩⟩
  · simp [State.getV]
  · simp
  · simp [State.keyDown]
  · simp

/-- Settles O50: the reset memory lists nothing. -/
theorem resetMemoryIsCanonical : Obligations.ResetMemoryIsCanonical := rfl

/-- Settles O53: pc is 0x200 and no stack entry is live. -/
theorem resetBoundsPcAndStack : Obligations.ResetBoundsPcAndStack :=
  ⟨by decide, fun k hk => absurd hk (Nat.not_lt_zero k.val)⟩

/-- Settles O55: the record is the clear one, which names no cause. -/
theorem resetFaultRecordIsTruthful : Obligations.ResetFaultRecordIsTruthful :=
  ⟨fun _ => rfl, nofun, rfl⟩

/-! ## The bounds of pc and the live stack entries -/

section
variable {i : Instr} {s t : State} (h : exec i s = .next t) (hok : faultOf i s = none) (hhi : s.pc.toNat ≤ 0x1000)
  (hlive : ∀ k : Fin 16, k.val < s.sp.val → (s.stack[k]).toNat ≤ 0x1000)
include h hok hhi hlive

/-- A handler starts with pc between 2 and 0x1000 (R91), so a skip or a step back stays within the bound. -/
theorem exec_pc_le (hlo : 2 ≤ s.pc.toNat) : t.pc.toNat ≤ 0x10FE := by
  have hskip : (s.pc + 2#16).toNat = s.pc.toNat + 2 := by simp; omega
  have hback : (s.pc - 2#16).toNat = s.pc.toNat - 2 := by simp; omega
  have hpc := (pcAfterEachInstruction i s t h).2 hok
  cases i with
  | jp nnn | call nnn =>
    have := nnn.isLt
    have : t.pc.toNat = nnn.toNat := hpc
    omega
  | jpV0 nnn =>
    have := nnn.isLt
    have := (s.getV 0x0#4).isLt
    have : t.pc.toNat = nnn.toNat + (s.getV 0x0#4).toNat := hpc
    omega
  | ret =>
    obtain ⟨top, htop, -⟩ := exec_ret hok
    have := hlive top (by omega)
    rw [hpc top (by omega)]
    omega
  | seVxKk | sneVxKk | seVxVy | sneVxVy => rw [hpc]; split <;> omega
  | skpVx x | sknpVx x =>
    rw [hpc (keyIndex (s.getV x)) (by simp [keyIndex])]
    split <;> omega
  | ldVxK x =>
    obtain ⟨hdown, hup⟩ := hpc
    by_cases hkey : ∃ k, s.keyDown k = true
    · rw [hdown hkey]; omega
    · rw [hup (by simpa using hkey)]; omega
  | _ => rw [hpc]; omega

/-- CALL pushes pc, RET only takes an entry off, and nothing else touches the stack. -/
theorem exec_liveEntries_le : ∀ k : Fin 16, k.val < t.sp.val → (t.stack[k]).toNat ≤ 0x1000 := by
  intro k hk
  by_cases hcall : ∃ nnn, i = .call nnn
  · obtain ⟨nnn, rfl⟩ := hcall
    obtain ⟨free, hfree, hexec⟩ := exec_call hok
    rw [hexec] at h
    cases h
    have hk' : k.val < free.val + 1 := hk
    show ((s.stack.set free.val s.pc)[k.val]).toNat ≤ 0x1000
    rw [Vector.getElem_set]
    split
    · exact hhi
    · exact hlive k (by omega)
  by_cases hret : i = .ret
  · subst hret
    obtain ⟨top, htop, hexec⟩ := exec_ret hok
    rw [hexec] at h
    cases h
    have hk' : k.val < top.val := hk
    exact hlive k (by omega)
  · have hcall' : ∀ nnn, i ≠ .call nnn := not_exists.mp hcall
    rw [exec_sp h hcall' hret] at hk
    simpa only [exec_stack h hcall'] using hlive k hk

end

/-- The bounds through the three cases of R91: halted, a fault, and a completed instruction. -/
theorem stepCycle_bounded {s t : State} (hs : PcAndStackBounded s) (h : stepCycle s = .next t) :
    PcAndStackBounded t := by
  obtain ⟨-, rfl⟩ | ⟨-, -, rfl⟩ | ⟨-, hfetch, hcommit⟩ := (stepCycle_next_iff s t).mp h
  · exact hs
  · exact hs
  · obtain ⟨u, hexec, ⟨-, rfl⟩ | ⟨hrun, rfl⟩⟩ := (commit_next_iff s t _).mp hcommit
    · exact hs
    · obtain ⟨-, hlive⟩ := hs
      have hpc : (preAdvanced s).pc.toNat = s.pc.toNat + 2 := by simp; omega
      have hok := faultOf_eq_none hexec hrun
      exact ⟨exec_pc_le hexec hok (by omega) hlive (by omega), exec_liveEntries_le hexec hok (by omega) hlive⟩

theorem applyEvent_bounded {e : Event} {s t : State} (hs : PcAndStackBounded s) (h : applyEvent e s = .next t) :
    PcAndStackBounded t := by
  cases e with
  | step => exact stepCycle_bounded hs h
  | load b =>
    obtain ⟨-, rfl⟩ := (loadEvent_next_iff b s t).mp h
    exact hs
  | reset seed => cases h; exact resetBoundsPcAndStack
  | tick | setKey | readFramebuffer => cases h; exact hs

/-- Settles O54: the event that is due keeps the bounds, which do not speak of the schedule. -/
theorem everyStepKeepsPcAndStackBounded : Obligations.EveryStepKeepsPcAndStackBounded := by
  intro s t hs h
  rw [step_due] at h
  have hs' : PcAndStackBounded { s with schedule := s.schedule.tail } := hs
  exact applyEvent_bounded hs' h

end Sys2Proof.Proofs
end

section
/-! Memory: what each instruction and each event stores, what a fetch then reads, and the canonical list that stands for
the 4096 bytes (spec/20_memory.md); from these the statements O6, O34, O51 and O52. -/

namespace Sys2Proof.Proofs

open Sys2Proof Sys2Proof.Machine Sys2Proof.Claims

/-! ## What an instruction stores -/

section
variable {i : Instr} {x : Nibble} {s t : State}

@[simp] theorem bcdDigits_length (v : Byte) : (bcdDigits v).length = 3 := rfl

@[simp] theorem registersUpTo_length (s : State) (x : Nibble) : (registersUpTo s x).length = x.toNat + 1 := by
  simp [registersUpTo]

theorem storedByte_of_faultOf_some {f : Cause × Nat} (h : faultOf i s = some f) (a : Nat) :
    storedByte i s a = none := by
  simp only [storedByte, h]

/-- LD B spells its three digits from I on (R173). -/
theorem storedByte_ldBVx (h : faultOf (.ldBVx x) s = none) (a : Nat) :
    storedByte (.ldBVx x) s a =
      if ha : s.I.toNat ≤ a ∧ a < s.I.toNat + (bcdDigits (s.getV x)).length
      then some (bcdDigits (s.getV x))[a - s.I.toNat] else none := by
  simp only [storedByte, h]
  have hlen := bcdDigits_length (s.getV x)
  by_cases ha : s.I.toNat ≤ a ∧ a < s.I.toNat + (bcdDigits (s.getV x)).length
  · obtain rfl | rfl | rfl : a = s.I.toNat ∨ a = s.I.toNat + 1 ∨ a = s.I.toNat + 2 := by omega
    all_goals simp [bcdDigits]
  · rw [dif_neg ha, if_neg (by omega), if_neg (by omega), if_neg (by omega)]

/-- LD [I] spells V0 to Vx from I on (R174). -/
theorem storedByte_ldMemVx (h : faultOf (.ldMemVx x) s = none) (a : Nat) :
    storedByte (.ldMemVx x) s a =
      if ha : s.I.toNat ≤ a ∧ a < s.I.toNat + (registersUpTo s x).length
      then some (registersUpTo s x)[a - s.I.toNat] else none := by
  simp [storedByte, h, registersUpTo, ← Nat.add_assoc]

theorem exec_memory (h : exec i s = .next t) (hdigits : ∀ x, i ≠ .ldBVx x) (hregs : ∀ x, i ≠ .ldMemVx x) :
    t.memory = s.memory := by
  obtain ⟨-, -, -, -, -, -, -, hmemory, -⟩ := otherStateChangesOnlyAsNamed i s t h
  by_contra hne
  obtain ⟨x, rfl⟩ | ⟨x, rfl⟩ := hmemory hne
  · exact hdigits x rfl
  · exact hregs x rfl

/-- Everything an instruction can do to memory: nothing, or one run of bytes stored at I, inside memory (R67, R176). -/
theorem exec_memory_cases (h : exec i s = .next t) :
    (t.memory = s.memory ∧ ∀ a, storedByte i s a = none) ∨
    ∃ bs : List Byte, s.I.toNat + bs.length ≤ Config.memSize ∧ t.memory = s.memory.writeBytes s.I.toNat bs ∧
      ∀ a, storedByte i s a =
        if ha : s.I.toNat ≤ a ∧ a < s.I.toNat + bs.length then some bs[a - s.I.toNat] else none := by
  rcases hok : faultOf i s with _ | f
  case some =>
    rw [exec_of_faultOf_some hok] at h
    cases h
    exact .inl ⟨rfl, storedByte_of_faultOf_some hok⟩
  cases i with
  | ldBVx x =>
    have hrange : s.I.toNat + 2 ≤ 0xFFF := by simpa [faultOf] using hok
    rw [exec_ldBVx hok] at h
    cases h
    exact .inr ⟨bcdDigits (s.getV x), Nat.succ_le_succ hrange, rfl, storedByte_ldBVx hok⟩
  | ldMemVx x =>
    have hrange : s.I.toNat + x.toNat ≤ 0xFFF := by simpa [faultOf] using hok
    rw [exec_ldMemVx hok] at h
    cases h
    exact .inr ⟨registersUpTo s x, by rw [registersUpTo_length]; exact Nat.succ_le_succ hrange, rfl,
      storedByte_ldMemVx hok⟩
  | _ => exact .inl ⟨exec_memory h nofun nofun, fun a => by simp only [storedByte, hok]⟩

theorem exec_memory_wf (hwf : s.memory.wf = true) (h : exec i s = .next t) : t.memory.wf = true := by
  obtain ⟨hkept, -⟩ | ⟨bs, -, hmem, -⟩ := exec_memory_cases h
  · rwa [hkept]
  · rw [hmem]; exact writeBytes_wf _ _ hwf

/-- After an instruction each byte is the one stored there, or the one that stood there (R71). -/
theorem exec_memory_read (hwf : s.memory.wf = true) (h : exec i s = .next t) (a : Nat) :
    t.memory.read a = (storedByte i s a).getD (s.memory.read a) := by
  obtain ⟨hkept, hnone⟩ | ⟨bs, hfit, hmem, hstored⟩ := exec_memory_cases h
  · rw [hkept, hnone]; rfl
  · rw [hmem, read_writeBytes hwf bs hfit, hstored]
    split <;> rfl

end

/-! ## The canonical form through every event -/

theorem stepCycle_memory_wf {s t : State} (hwf : s.memory.wf = true) (h : stepCycle s = .next t) :
    t.memory.wf = true := by
  obtain ⟨-, rfl⟩ | ⟨-, -, rfl⟩ | ⟨-, -, hcommit⟩ := (stepCycle_next_iff s t).mp h
  · exact hwf
  · exact hwf
  · obtain ⟨u, hexec, ⟨-, rfl⟩ | ⟨-, rfl⟩⟩ := (commit_next_iff s t _).mp hcommit
    · exact hwf
    · have hstart : (preAdvanced s).memory.wf = true := hwf
      exact exec_memory_wf hstart hexec

theorem applyEvent_memory_wf {e : Event} {s t : State} (hwf : s.memory.wf = true) (h : applyEvent e s = .next t) :
    t.memory.wf = true := by
  cases e with
  | step => exact stepCycle_memory_wf hwf h
  | load b =>
    obtain ⟨-, rfl⟩ := (loadEvent_next_iff b s t).mp h
    exact load_wf b hwf
  | reset seed => cases h; exact resetWith_wf s.font seed
  | tick | setKey | readFramebuffer => cases h; exact hwf

/-- Settles O51: the event that is due keeps the canonical form, which does not speak of the schedule. -/
theorem everyStepKeepsMemoryCanonical : Obligations.EveryStepKeepsMemoryCanonical := by
  intro s t hwf h
  rw [step_due] at h
  have hwf' : ({ s with schedule := s.schedule.tail } : State).memory.wf = true := hwf
  exact applyEvent_memory_wf hwf' h

/-! ## The fetch -/

/-- Settles O34: the fetch reads the two bytes as the instruction left them. -/
theorem storedInstructionIsFetchedNext : Obligations.StoredInstructionIsFetchedNext := by
  intro i s t p hwf h
  rw [← exec_memory_read hwf h, ← exec_memory_read hwf h]
  rfl

/-- Settles O6: the number that two bytes spell. -/
theorem fetchIsBigEndian : Obligations.FetchIsBigEndian := by
  intro s
  rw [fetchedWord, Memory.fetchWord, wordOfBytes_toNat, Nat.mul_comm]

/-! ## Canonical lists that read alike -/

@[simp] theorem read_cons_self (b : Nat) (u : Byte) (m : Memory) : Memory.read ((b, u) :: m) b = u :=
  if_pos rfl

theorem read_cons_of_ne {a b : Nat} (hab : a ≠ b) (u : Byte) (m : Memory) :
    Memory.read ((b, u) :: m) a = m.read a :=
  if_neg hab

/-- An address below a canonical list is not listed. -/
theorem read_of_wfFrom_of_lt {lo a : Nat} {m : Memory} (hm : Memory.wfFrom lo m = true) (ha : a < lo) :
    m.read a = unlistedByte a := by
  induction m generalizing lo with
  | nil => rfl
  | cons c m ih =>
    obtain ⟨b, u⟩ := c
    obtain ⟨hlo, -, -, hm⟩ := (wfFrom_cons lo b u m).mp hm
    rw [read_cons_of_ne (by omega)]
    exact ih hm (by omega)

/-- At its first address a canonical list differs from any that starts above it: the byte listed there is not the one an
unlisted address reads as. -/
theorem read_head_ne {lo b : Nat} {u : Byte} {m m' : Memory} (hm : Memory.wfFrom lo ((b, u) :: m) = true)
    (hm' : Memory.wfFrom (b + 1) m' = true) : Memory.read ((b, u) :: m) b ≠ m'.read b := by
  obtain ⟨-, -, hlisted, -⟩ := (wfFrom_cons lo b u m).mp hm
  rwa [read_cons_self, read_of_wfFrom_of_lt hm' (Nat.lt_succ_self b)]

/-- Lists that read alike have equal heads: the lower of two different ones would be seen. -/
theorem eq_of_read_eq {lo : Nat} {m m' : Memory} (hm : Memory.wfFrom lo m = true) (hm' : Memory.wfFrom lo m' = true)
    (hread : ∀ a, m.read a = m'.read a) : m = m' := by
  induction m generalizing lo m' with
  | nil =>
    cases m' with
    | nil => rfl
    | cons d m' => exact absurd (hread d.1).symm (read_head_ne hm' rfl)
  | cons c m ih =>
    obtain ⟨b, u⟩ := c
    cases m' with
    | nil => exact absurd (hread b) (read_head_ne hm rfl)
    | cons d m' =>
      obtain ⟨b', u'⟩ := d
      obtain ⟨-, hb, hu, hrest⟩ := (wfFrom_cons lo b u m).mp hm
      obtain ⟨-, hb', hu', hrest'⟩ := (wfFrom_cons lo b' u' m').mp hm'
      rcases Nat.lt_trichotomy b b' with hlt | rfl | hgt
      · exact absurd (hread b) (read_head_ne hm ((wfFrom_cons ..).mpr ⟨hlt, hb', hu', hrest'⟩))
      · obtain rfl : u = u' := by simpa using hread b
        have htail : ∀ a, Memory.read m a = Memory.read m' a := by
          intro a
          by_cases hab : a = b
          · subst hab
            rw [read_of_wfFrom_of_lt hrest (Nat.lt_succ_self a), read_of_wfFrom_of_lt hrest' (Nat.lt_succ_self a)]
          · simpa only [read_cons_of_ne hab] using hread a
        rw [ih hrest hrest' htail]
      · exact absurd (hread b').symm (read_head_ne hm' ((wfFrom_cons ..).mpr ⟨hgt, hb, hu, hrest⟩))

/-- Settles O52: the canonical form is the one from address 0 on. -/
theorem canonicalMemoriesReadingAlikeAreEqual : Obligations.CanonicalMemoriesReadingAlikeAreEqual :=
  fun _ _ hwf hwf' hread => eq_of_read_eq hwf hwf' hread

end Sys2Proof.Proofs
end

section
/-! The decoder, the encoder and the opcode map (spec/30_encoding.md), and what a Step answers; from these the statements
O1 to O5, O7, O8 and O22. -/

namespace Sys2Proof.Proofs

open Sys2Proof Sys2Proof.Machine

/-! ## The unmapped words (R98, R99) -/

/-- R99 in the fields of R92. -/
theorem unmappedWord_iff (w : Word) :
    unmappedWord w = true ↔
      (fieldFamily w = 0x0#4 ∧ fieldN w ∉ [0x0#4, 0xE#4]) ∨
      (fieldFamily w = 0x8#4 ∧ fieldN w ∈ [0x8#4, 0x9#4, 0xA#4, 0xB#4, 0xC#4, 0xD#4, 0xF#4]) ∨
      (fieldFamily w = 0xE#4 ∧ fieldN w ∉ [0x1#4, 0xE#4]) ∨
      (fieldFamily w = 0xF#4 ∧
        fieldKK w ∉ [0x07#8, 0x0A#8, 0x15#8, 0x18#8, 0x1E#8, 0x29#8, 0x33#8, 0x55#8, 0x65#8]) := by
  simp only [unmappedWord, fieldFamily, fieldN, fieldKK, Bool.or_eq_true, Bool.and_eq_true, Bool.not_eq_true',
    beq_iff_eq, List.contains_iff_mem, Bool.eq_false_iff, ne_eq, or_assoc]

theorem decodeFamily0_eq_nop {w : Word} (h : fieldN w ∉ [0x0#4, 0xE#4]) : decodeFamily0 w = .nopUnmapped w := by
  unfold decodeFamily0
  split <;> simp_all

theorem decodeFamily8_eq_nop {w : Word} (h : fieldN w ∈ [0x8#4, 0x9#4, 0xA#4, 0xB#4, 0xC#4, 0xD#4, 0xF#4]) :
    decodeFamily8 w = .nopUnmapped w := by
  unfold decodeFamily8
  split <;> simp_all

theorem decodeFamilyE_eq_nop {w : Word} (h : fieldN w ∉ [0x1#4, 0xE#4]) : decodeFamilyE w = .nopUnmapped w := by
  unfold decodeFamilyE
  split <;> simp_all

theorem decodeFamilyF_eq_nop {w : Word}
    (h : fieldKK w ∉ [0x07#8, 0x0A#8, 0x15#8, 0x18#8, 0x1E#8, 0x29#8, 0x33#8, 0x55#8, 0x65#8]) :
    decodeFamilyF w = .nopUnmapped w := by
  unfold decodeFamilyF
  split <;> simp_all

/-- R98: the dispatch of R93 to R95 falls through at an unmapped word. -/
theorem decodeWord_of_unmapped {w : Word} (h : unmappedWord w = true) : decodeWord w = .nopUnmapped w := by
  obtain ⟨hf, hkey⟩ | ⟨hf, hkey⟩ | ⟨hf, hkey⟩ | ⟨hf, hkey⟩ := (unmappedWord_iff w).mp h <;> rw [decodeWord, hf]
  · exact decodeFamily0_eq_nop hkey
  · exact decodeFamily8_eq_nop hkey
  · exact decodeFamilyE_eq_nop hkey
  · exact decodeFamilyF_eq_nop hkey

/-! ## Encoding, then decoding -/

/-- The decoder reads back the fields that each format of R100 put together; the no-op's word falls through. -/
theorem decodeWord_encode {i : Instr} (hwf : i.wellFormed = true) : decodeWord (encode i) = i := by
  cases i with
  | nopUnmapped w => exact decodeWord_of_unmapped hwf
  | cls | ret => rfl
  | jp | call | ldIAddr | jpV0 => simp [encode, decodeWord]
  | seVxKk | sneVxKk | ldVxKk | addVxKk | rndVxKk => simp [encode, decodeWord]
  | seVxVy | sneVxVy | drwVxVyN => simp [encode, decodeWord]
  | ldVxVy | orVxVy | andVxVy | xorVxVy | addVxVy | subVxVy | shrVx | subnVxVy | shlVx =>
    simp [encode, decodeWord, decodeFamily8]
  | skpVx | sknpVx => simp [encode, decodeWord, decodeFamilyE]
  | ldVxDt | ldVxK | ldDtVx | ldStVx | addIVx | ldFVx | ldBVx | ldMemVx | ldVxMem =>
    simp [encode, decodeWord, decodeFamilyF]

/-- Settles O2: the two bytes spell the encoded word (R64), which decodes to the instruction. -/
theorem decodeOfEncodedBytesIsTheInstruction : Obligations.DecodeOfEncodedBytesIsTheInstruction := by
  intro i rest hwf
  rw [encodeBytes, List.cons_append, List.cons_append, List.nil_append, decode, wordOfBytes_high_low,
    decodeWord_encode hwf]

/-- Settles O1: fifteen closed words. -/
theorem writtenOutWordsDecode : Obligations.WrittenOutWordsDecode := by
  unfold Obligations.WrittenOutWordsDecode
  decide

/-- Settles O5: the decoder reads the family and the key of a word put together from its fields, and no other bit. -/
theorem aliasesDecodeAsTheCanonicalWord : Obligations.AliasesDecodeAsTheCanonicalWord := by
  intro a b x y
  simp [decodeWord, decodeFamily0, decodeFamily8, decodeFamilyE]

/-! ## The fields of a word under a mask (R96) -/

/-- A word is its four nibbles (R92). -/
theorem packXYN_fields (w : Word) : packXYN (fieldFamily w) (fieldX w) (fieldY w) (fieldN w) = w := by
  apply BitVec.eq_of_toNat_eq
  rw [packXYN_toNat, fieldFamily, fieldX, fieldY, fieldN, field_toNat, field_toNat, field_toNat, field_toNat]
  have := w.isLt
  omega

theorem word_eq_iff_fields (v w : Word) :
    v = w ↔ fieldFamily v = fieldFamily w ∧ fieldX v = fieldX w ∧ fieldY v = fieldY w ∧ fieldN v = fieldN w := by
  constructor
  · rintro rfl
    exact ⟨rfl, rfl, rfl, rfl⟩
  · rintro ⟨hfamily, hx, hy, hn⟩
    rw [← packXYN_fields v, hfamily, hx, hy, hn, packXYN_fields]

theorem fieldKK_eq_iff (v w : Word) : fieldKK v = fieldKK w ↔ fieldY v = fieldY w ∧ fieldN v = fieldN w := by
  simp only [fieldKK, fieldY, fieldN, ← BitVec.toNat_inj, field_toNat]
  omega

/-- Two words agree under a mask when each of their nibbles does. -/
theorem and_eq_and_iff_fields (v w m : Word) :
    v &&& m = w &&& m ↔
      fieldFamily v &&& fieldFamily m = fieldFamily w &&& fieldFamily m ∧ fieldX v &&& fieldX m = fieldX w &&& fieldX m ∧
      fieldY v &&& fieldY m = fieldY w &&& fieldY m ∧ fieldN v &&& fieldN m = fieldN w &&& fieldN m := by
  rw [word_eq_iff_fields]
  simp only [fieldFamily, fieldX, fieldY, fieldN, BitVec.extractLsb'_and]

theorem and_nibble_F (a : Nibble) : a &&& 0xF#4 = a := BitVec.and_allOnes

theorem and_F000_eq_iff (v w : Word) : v &&& 0xF000#16 = w &&& 0xF000#16 ↔ fieldFamily v = fieldFamily w := by
  rw [and_eq_and_iff_fields]
  simp [fieldFamily, fieldX, fieldY, fieldN, and_nibble_F]

theorem and_F00F_eq_iff (v w : Word) :
    v &&& 0xF00F#16 = w &&& 0xF00F#16 ↔ fieldFamily v = fieldFamily w ∧ fieldN v = fieldN w := by
  rw [and_eq_and_iff_fields]
  simp [fieldFamily, fieldX, fieldY, fieldN, and_nibble_F]

theorem and_F0FF_eq_iff (v w : Word) :
    v &&& 0xF0FF#16 = w &&& 0xF0FF#16 ↔ fieldFamily v = fieldFamily w ∧ fieldKK v = fieldKK w := by
  rw [and_eq_and_iff_fields, fieldKK_eq_iff]
  simp [fieldFamily, fieldX, fieldY, fieldN, and_nibble_F]

/-! ## The rows of the opcode map (R97), which have three masks -/

/-- A row whose value sets no bit outside the mask asks for agreement with the value under the mask. -/
theorem matchesWord_iff {r : OpcodeRow} (hvalue : r.value &&& r.mask = r.value) (w : Word) :
    r.matchesWord w = true ↔ w &&& r.mask = r.value &&& r.mask := by
  rw [OpcodeRow.matchesWord, beq_iff_eq, hvalue]

section
variable (name : String) (v : Word) (build : Word → Instr) (w : Word)

theorem matchesWord_F000_iff (hv : v &&& 0xF000#16 = v) :
    OpcodeRow.matchesWord ⟨name, 0xF000#16, v, build⟩ w = true ↔ fieldFamily w = v.extractLsb' 12 4 :=
  (matchesWord_iff hv w).trans (and_F000_eq_iff w v)

theorem matchesWord_F00F_iff (hv : v &&& 0xF00F#16 = v) :
    OpcodeRow.matchesWord ⟨name, 0xF00F#16, v, build⟩ w = true ↔
      fieldFamily w = v.extractLsb' 12 4 ∧ fieldN w = v.extractLsb' 0 4 :=
  (matchesWord_iff hv w).trans (and_F00F_eq_iff w v)

theorem matchesWord_F0FF_iff (hv : v &&& 0xF0FF#16 = v) :
    OpcodeRow.matchesWord ⟨name, 0xF0FF#16, v, build⟩ w = true ↔
      fieldFamily w = v.extractLsb' 12 4 ∧ fieldKK w = v.extractLsb' 0 8 :=
  (matchesWord_iff hv w).trans (and_F0FF_eq_iff w v)

end

/-- Each row's condition fixes the family, and the key if any, that the decoder dispatches on (R93 to R95). -/
theorem decodeWord_of_matchesWord :
    ∀ r ∈ opcodeTable, ∀ w, r.matchesWord w = true → decodeWord w = r.build w := by
  simp +contextual [opcodeTable, opcodeTableLow, opcodeTableHigh, matchesWord_F000_iff, matchesWord_F00F_iff,
    matchesWord_F0FF_iff, decodeWord, decodeFamily0, decodeFamily8, decodeFamilyE, decodeFamilyF]

/-- No row gives the no-op (R98). -/
theorem build_ne_nopUnmapped : ∀ r ∈ opcodeTable, ∀ w u, r.build w ≠ .nopUnmapped u := by
  simp [opcodeTable, opcodeTableLow, opcodeTableHigh]

/-- Of two rows that match one word, each value agrees with the other where both masks reach. -/
theorem values_agree_of_both_match {r q : OpcodeRow} {w : Word} (hr : r.matchesWord w = true)
    (hq : q.matchesWord w = true) : r.value &&& q.mask = q.value &&& r.mask := by
  rw [OpcodeRow.matchesWord, beq_iff_eq] at hr hq
  rw [← hr, ← hq, BitVec.and_assoc, BitVec.and_assoc, BitVec.and_comm r.mask]

/-- Any two rows of R97 differ where both masks reach. -/
theorem opcodeTable_values_differ :
    opcodeTable.Pairwise fun r q => r.value &&& q.mask ≠ q.value &&& r.mask := by decide

/-- The families whose words are all mapped, and the four that R99 lists. -/
theorem family_cases (f : Nibble) :
    f ∈ [0x1#4, 0x2#4, 0x3#4, 0x4#4, 0x5#4, 0x6#4, 0x7#4, 0x9#4, 0xA#4, 0xB#4, 0xC#4, 0xD#4] ∨
    f = 0x0#4 ∨ f = 0x8#4 ∨ f = 0xE#4 ∨ f = 0xF#4 := by
  revert f; decide

/-- The low nibbles R99 lists for family 8 are those no row of it has. -/
theorem mem_family8_unmapped {n : Nibble}
    (h : n ∉ [0x0#4, 0x1#4, 0x2#4, 0x3#4, 0x4#4, 0x5#4, 0x6#4, 0x7#4, 0xE#4]) :
    n ∈ [0x8#4, 0x9#4, 0xA#4, 0xB#4, 0xC#4, 0xD#4, 0xF#4] := by
  revert n; decide

/-- What a word that matches no row is not, family by family. -/
theorem fields_of_no_row {w : Word} (h : ∀ r ∈ opcodeTable, r.matchesWord w = false) :
    fieldFamily w ∉ [0x1#4, 0x2#4, 0x3#4, 0x4#4, 0x5#4, 0x6#4, 0x7#4, 0x9#4, 0xA#4, 0xB#4, 0xC#4, 0xD#4] ∧
    (fieldFamily w = 0x0#4 → fieldN w ∉ [0x0#4, 0xE#4]) ∧
    (fieldFamily w = 0x8#4 → fieldN w ∉ [0x0#4, 0x1#4, 0x2#4, 0x3#4, 0x4#4, 0x5#4, 0x6#4, 0x7#4, 0xE#4]) ∧
    (fieldFamily w = 0xE#4 → fieldN w ∉ [0x1#4, 0xE#4]) ∧
    (fieldFamily w = 0xF#4 →
      fieldKK w ∉ [0x07#8, 0x0A#8, 0x15#8, 0x18#8, 0x1E#8, 0x29#8, 0x33#8, 0x55#8, 0x65#8]) := by
  revert h
  simp +contextual [opcodeTable, opcodeTableLow, opcodeTableHigh, ← Bool.not_eq_true, matchesWord_F000_iff,
    matchesWord_F00F_iff, matchesWord_F0FF_iff]

/-- What the rows leave over is R99's list. -/
theorem unmappedWord_of_no_row {w : Word} (h : ∀ r ∈ opcodeTable, r.matchesWord w = false) :
    unmappedWord w = true := by
  obtain ⟨hmapped, h0, h8, hE, hF⟩ := fields_of_no_row h
  rw [unmappedWord_iff]
  obtain hf | hf | hf | hf | hf := family_cases (fieldFamily w)
  · exact absurd hf hmapped
  · exact .inl ⟨hf, h0 hf⟩
  · exact .inr (.inl ⟨hf, mem_family8_unmapped (h8 hf)⟩)
  · exact .inr (.inr (.inl ⟨hf, hE hf⟩))
  · exact .inr (.inr (.inr ⟨hf, hF hf⟩))

/-- Settles O4: a row that matched an unmapped word would give the no-op. -/
theorem unmappedWordsAreTheComplementOfTheMap : Obligations.UnmappedWordsAreTheComplementOfTheMap := by
  intro w
  refine ⟨fun hunmapped r hr => ?_, unmappedWord_of_no_row⟩
  rw [← Bool.not_eq_true]
  intro hmatch
  have hbuild : r.build w = .nopUnmapped w :=
    (decodeWord_of_matchesWord r hr w hmatch).symm.trans (decodeWord_of_unmapped hunmapped)
  exact build_ne_nopUnmapped r hr w w hbuild

/-- Settles O3: the matching row, R99 for the words without one, and the values that keep the rows apart. -/
theorem decoderFollowsTheOpcodeMap : Obligations.DecoderFollowsTheOpcodeMap :=
  ⟨decodeWord_of_matchesWord, fun _ hnone => decodeWord_of_unmapped (unmappedWord_of_no_row hnone),
    opcodeTable_values_differ.imp fun hdiffer _ ⟨hr, hq⟩ => hdiffer (values_agree_of_both_match hr hq)⟩

/-! ## What a Step answers (R91) -/

/-- A Step that fetches answers what its handler left, or keeps the record of the fault alone (R91, R234). -/
theorem stepCycle_of_exec {s t : State} (hrun : s.fault.halted = false) (hpc : s.pc.toNat ≤ 0xFFE)
    (hexec : exec (decodeWord (fetchedWord s)) (preAdvanced s) = .next t) :
    stepCycle s = .next (if t.fault.halted then faultedStep s t.fault else t) := by
  refine (stepCycle_next_iff s _).mpr (.inr (.inr ⟨hrun, hpc, (commit_next_iff s _ _).mpr ⟨t, hexec, ?_⟩⟩))
  cases hfault : t.fault.halted with
  | true => exact .inl ⟨rfl, rfl⟩
  | false => exact .inr ⟨rfl, rfl⟩

theorem stepCycle_answers (s : State) : ∃ t, stepCycle s = .next t := by
  cases hrun : s.fault.halted with
  | true => exact ⟨s, (stepCycle_next_iff s s).mpr (.inl ⟨hrun, rfl⟩)⟩
  | false =>
    rcases Nat.lt_or_ge 0xFFE s.pc.toNat with hpast | hpc
    · exact ⟨_, (stepCycle_next_iff s _).mpr (.inr (.inl ⟨hrun, hpast, rfl⟩))⟩
    · obtain ⟨u, hexec, -⟩ := exec_answers_frameKept (decodeWord (fetchedWord s)) (preAdvanced s)
      exact ⟨_, stepCycle_of_exec hrun hpc hexec⟩

/-- Of the events of R9 only a Load can be refused (R274, log entry 9). -/
theorem applyEvent_answers_or_refused (e : Event) (s : State) :
    (∃ t, applyEvent e s = .next t) ∨
    (applyEvent e s = .refused .loadOutOfPlace ∧ s.loadOpen = false ∧ ∃ b, e = .load b) := by
  cases e with
  | step => exact .inl (stepCycle_answers s)
  | load b =>
    cases hopen : s.loadOpen with
    | true => exact .inl ⟨load b s, (loadEvent_next_iff b s _).mpr ⟨hopen, rfl⟩⟩
    | false => exact .inr ⟨by simp [applyEvent, loadEvent, hopen], rfl, b, rfl⟩
  | reset | tick | setKey | readFramebuffer => exact .inl ⟨_, rfl⟩

/-- Settles O8: every instruction by its arm of `exec`, a Step by R91, and the event that is due by its own. -/
theorem everyStepAnswersANextState : Obligations.EveryStepAnswersANextState := by
  refine ⟨fun i s => ?_, stepCycle_answers, fun s => ?_⟩
  · obtain ⟨t, hexec, -⟩ := exec_answers_frameKept i s
    exact ⟨t, hexec⟩
  · cases hschedule : s.schedule with
    | nil =>
      rw [step_nil s hschedule]
      exact .inl (stepCycle_answers s)
    | cons e rest =>
      rw [step_cons s e rest hschedule]
      obtain hnext | ⟨hrefused, hclosed, b, rfl⟩ := applyEvent_answers_or_refused e { s with schedule := rest }
      · exact .inl hnext
      · exact .inr ⟨hrefused, hclosed, b, rest, rfl⟩

/-- Settles O7: the three cases of a Step; two bytes decode as the word they spell. -/
theorem stepRunsTheDecodedInstruction : Obligations.StepRunsTheDecodedInstruction := by
  intro s hschedule
  rw [step_nil s hschedule]
  refine ⟨fun hhalted => ?_, fun hrun hpc => ?_, fun hrun hpc i t hdecode hexec => ?_⟩
  · exact (stepCycle_next_iff s s).mpr (.inl ⟨hhalted, rfl⟩)
  · exact (stepCycle_next_iff s _).mpr (.inr (.inl ⟨hrun, hpc, rfl⟩))
  · cases hdecode
    exact stepCycle_of_exec hrun hpc hexec

/-! ## The no-op (R98, R153) -/

theorem exec_of_unmapped {w : Word} (h : unmappedWord w = true) (s : State) : exec (decodeWord w) s = .next s := by
  rw [decodeWord_of_unmapped h]
  rfl

/-- Settles O22: the no-op keeps the handler's state, which in a Step is the pre-advanced one. -/
theorem unmappedWordsDoNothing : Obligations.UnmappedWordsDoNothing := by
  refine ⟨fun w h s => ⟨decodeWord_of_unmapped h, exec_of_unmapped h s⟩, fun s hrun hpc h => ?_,
    fun x y n hn => exec_of_unmapped ?_⟩
  · have hstep := stepCycle_of_exec hrun hpc (exec_of_unmapped h (preAdvanced s))
    rwa [preAdvanced_fault, hrun] at hstep
  · rw [unmappedWord_iff, fieldFamily_packXYN, fieldN_packXYN]
    exact .inr (.inl ⟨rfl, hn⟩)

end Sys2Proof.Proofs
end

section
/-! Control transfer (spec/40_control_flow.md): the jumps, CALL and RET, the register skips and the end of a run; the
statements O16 to O20 and O58. -/

namespace Sys2Proof.Proofs

open Sys2Proof Sys2Proof.Machine Sys2Proof.Claims

/-! ## Jumps (R121, R123) -/

/-- Settles O16: the canonical words decode, and the two targets are `zextAddr` and `jumpV0Target`. -/
theorem jumpsSetPc : Obligations.JumpsSetPc := by
  intro nnn s
  have hjp : decodeWord (packA 0x1#4 nnn) = .jp nnn := decodeWord_encode (i := .jp nnn) rfl
  have hjpV0 : decodeWord (packA 0xB#4 nnn) = .jpV0 nnn := decodeWord_encode (i := .jpV0 nnn) rfl
  exact ⟨hjp, hjpV0, ⟨_, rfl, rfl, zextAddr_toNat nnn⟩, ⟨_, rfl, rfl, jumpV0Target_toNat nnn s⟩⟩

/-! ## CALL and RET (R120, R122) -/

theorem faultOf_call_of_room {nnn : Addr} {s : State} (hroom : s.sp.val ≠ 16) : faultOf (.call nnn) s = none :=
  if_neg hroom

theorem faultOf_ret_of_live {s : State} (hlive : s.sp.val ≠ 0) : faultOf .ret s = none :=
  if_neg hlive

/-- Settles O17: a push at the free slot below 16 entries, the fault's record at 16. -/
theorem callPushesAndJumps : Obligations.CallPushesAndJumps := by
  intro nnn s
  have hdecode : decodeWord (packA 0x2#4 nnn) = .call nnn := decodeWord_encode (i := .call nnn) rfl
  refine ⟨hdecode, fun hroom => ?_, fun hfull => exec_of_faultOf_some (if_pos hfull)⟩
  obtain ⟨free, hfree, hcall⟩ := exec_call (faultOf_call_of_room (nnn := nnn) hroom)
  refine ⟨_, hcall, rfl, congrArg (· + 1) hfree, zextAddr_toNat nnn, fun k => ?_⟩
  simp [← hfree, Vector.getElem_set, eq_comm]

/-- Settles O18: a pop of the entry below sp, the fault's record with none live. -/
theorem returnPopsIntoPc : Obligations.ReturnPopsIntoPc := by
  refine ⟨fun a b => ?_, fun s => ⟨fun hlive => ?_, fun hempty => exec_of_faultOf_some (if_pos hempty)⟩⟩
  · obtain ⟨-, hret, -⟩ := aliasesDecodeAsTheCanonicalWord a b a b
    exact hret
  · obtain ⟨top, htop, hret⟩ := exec_ret (faultOf_ret_of_live hlive)
    have hpred : top.val = s.sp.val - 1 := by omega
    refine ⟨_, hret, rfl, hpred, fun k hk => ?_⟩
    obtain rfl : k = top := Fin.ext (hk.trans hpred.symm)
    rfl

/-- Settles O19: the slot RET pops is the one CALL pushed. -/
theorem returnUndoesCall : Obligations.ReturnUndoesCall := by
  intro nnn p s hroom
  obtain ⟨free, hfree, hcall⟩ := exec_call (faultOf_call_of_room (nnn := nnn) hroom)
  obtain ⟨top, htop, hret⟩ := exec_ret (faultOf_ret_of_live
    (s := { s with stack := s.stack.set free.val s.pc, sp := free.succ, pc := p }) (Nat.succ_ne_zero free.val))
  obtain rfl : top = free := Fin.ext (Nat.succ.inj htop)
  have hsp : top.castSucc = s.sp := Fin.ext hfree
  have hpushed : (s.stack.set top.val s.pc)[top] = s.pc := Vector.getElem_set_self _
  refine ⟨_, _, hcall, hret, ?_⟩
  rw [hsp, hpushed]

/-! ## The register skips (R124 to R127, R129) -/

/-- A skip changes pc alone, and that as the condition its test stands for says. -/
theorem skipIf_eq_of_iff {c : Bool} {p : Prop} [Decidable p] (h : c = true ↔ p) (s : State) :
    skipIf c s = { s with pc := if p then s.pc + 2#16 else s.pc } := by
  unfold skipIf
  by_cases hp : p
  · rw [if_pos (h.mpr hp), if_pos hp]
  · rw [if_neg (mt h.mp hp), if_neg hp]

/-- Settles O20: each skip is `skipIf` of its comparison; families 5 and 9 by their aliases. -/
theorem registerSkipsAddTwo : Obligations.RegisterSkipsAddTwo := by
  intro x y a kk s
  have hse : decodeWord (packXK 0x3#4 x kk) = .seVxKk x kk := decodeWord_encode (i := .seVxKk x kk) rfl
  have hsne : decodeWord (packXK 0x4#4 x kk) = .sneVxKk x kk := decodeWord_encode (i := .sneVxKk x kk) rfl
  obtain ⟨-, -, hseVxVy, hsneVxVy, -⟩ := aliasesDecodeAsTheCanonicalWord a a x y
  exact ⟨hse, hsne, hseVxVy, hsneVxVy,
    congrArg _ (skipIf_eq_of_iff beq_iff_eq s), congrArg _ (skipIf_eq_of_iff bne_iff_ne s),
    congrArg _ (skipIf_eq_of_iff beq_iff_eq s), congrArg _ (skipIf_eq_of_iff bne_iff_ne s)⟩

/-! ## The end of a run (R121, log entry 15) -/

/-- The end of a run: a word that can be fetched, with no fault recorded, and jumps to its own address. -/
theorem endOfRun_iff (s : State) :
    EndOfRun s = true ↔
      s.fault.halted = false ∧ s.pc.toNat ≤ 0xFFE ∧
        ∃ nnn, decodeWord (fetchedWord s) = .jp nnn ∧ zextAddr nnn = s.pc := by
  unfold EndOfRun
  split
  · next nnn hjp => simp [hjp, and_assoc]
  · next hother =>
    have hno : ∀ nnn, decodeWord (fetchedWord s) ≠ .jp nnn := hother
    simp [hno]

/-- The end of a run does not depend on the latch or on `loadOpen`. -/
theorem endOfRun_latch_loadOpen (s : State) (w : Word) (b : Bool) :
    EndOfRun { s with opcode := w, loadOpen := b } = EndOfRun s := rfl

/-- The Step at the end of a run: the jump undoes the pre-advance, and the latch and `loadOpen` keep what it wrote. -/
theorem stepCycle_of_endOfRun {s : State} (h : EndOfRun s = true) :
    stepCycle s = .next { s with opcode := fetchedWord s, loadOpen := false } := by
  obtain ⟨hrun, hpc, nnn, hjp, htarget⟩ := (endOfRun_iff s).mp h
  have hexec : exec (decodeWord (fetchedWord s)) (preAdvanced s) = .next { preAdvanced s with pc := s.pc } := by
    rw [hjp, ← htarget]
    rfl
  have hstep := stepCycle_of_exec hrun hpc hexec
  rwa [preAdvanced_fault, hrun] at hstep

/-- Settles O58: the Step changes only the latch and `loadOpen`, which the end of a run does not read. -/
theorem endOfRunIsStable : Obligations.EndOfRunIsStable := by
  intro s hschedule hend
  rw [step_nil s hschedule]
  exact ⟨_, stepCycle_of_endOfRun hend, (endOfRun_latch_loadOpen s _ _).trans hend, rfl⟩

end Sys2Proof.Proofs
end

section
/-! Register loads and the ALU (spec/41_alu.md): what each operation leaves in a register, read as a number or bit by bit;
the statements O23 to O28. -/

namespace Sys2Proof.Proofs

open Sys2Proof Sys2Proof.Machine

/-! ## Operations that write one register (R140, R141, R144 to R147) -/

theorem getV_setV_toNat {s : State} {x : Nibble} {v : Byte} {result : Nat} (hv : v.toNat = result) (j : Nibble) :
    ((s.setV x v).getV j).toNat = if j = x then result else (s.getV j).toNat := by
  rw [getV_setV, apply_ite BitVec.toNat, hv]

theorem getV_setV_getLsbD {s : State} {x : Nibble} {v : Byte} {b : Nat} {bit : Bool} (hv : v.getLsbD b = bit)
    (j : Nibble) : ((s.setV x v).getV j).getLsbD b = if j = x then bit else (s.getV j).getLsbD b := by
  rw [getV_setV, apply_ite (BitVec.getLsbD · b), hv]

/-- Settles O23: each load is one `setV`. -/
theorem registerLoadsWriteOneRegister : Obligations.RegisterLoadsWriteOneRegister := by
  intro x y kk s
  have himm : decodeWord (packXK 0x6#4 x kk) = .ldVxKk x kk := decodeWord_encode (i := .ldVxKk x kk) rfl
  have hreg : decodeWord (packXYN 0x8#4 x y 0x0#4) = .ldVxVy x y := decodeWord_encode (i := .ldVxVy x y) rfl
  exact ⟨himm, hreg, ⟨_, rfl, rfl, fun j => getV_setV s x j kk⟩, ⟨_, rfl, rfl, fun j => getV_setV s x j (s.getV y)⟩⟩

/-- Settles O24: one `setV` of the sum of bytes, which is mod 256. -/
theorem addImmediateSetsNoFlag : Obligations.AddImmediateSetsNoFlag := by
  intro x kk s
  have hadd : decodeWord (packXK 0x7#4 x kk) = .addVxKk x kk := decodeWord_encode (i := .addVxKk x kk) rfl
  exact ⟨hadd, _, rfl, rfl, getV_setV_toNat (BitVec.toNat_add (s.getV x) kk)⟩

/-- Settles O25: one `setV` each, of a byte that has the operation at every bit. -/
theorem bitwiseOperationsSetNoFlag : Obligations.BitwiseOperationsSetNoFlag := by
  intro x y s
  have hor : decodeWord (packXYN 0x8#4 x y 0x1#4) = .orVxVy x y := decodeWord_encode (i := .orVxVy x y) rfl
  have hand : decodeWord (packXYN 0x8#4 x y 0x2#4) = .andVxVy x y := decodeWord_encode (i := .andVxVy x y) rfl
  have hxor : decodeWord (packXYN 0x8#4 x y 0x3#4) = .xorVxVy x y := decodeWord_encode (i := .xorVxVy x y) rfl
  exact ⟨hor, hand, hxor,
    ⟨_, rfl, rfl, fun j _ => getV_setV_getLsbD BitVec.getLsbD_or j⟩,
    ⟨_, rfl, rfl, fun j _ => getV_setV_getLsbD BitVec.getLsbD_and j⟩,
    ⟨_, rfl, rfl, fun j _ => getV_setV_getLsbD BitVec.getLsbD_xor j⟩⟩

/-! ## Operations that write a result, then VF (R148 to R152) -/

theorem getV_setResultFlag_toNat {s : State} {x : Nibble} {r f : Byte} {result flag : Nat} (hr : r.toNat = result)
    (hf : f.toNat = flag) (j : Nibble) :
    ((s.setResultFlag x r f).getV j).toNat =
      if j = 0xF#4 then flag else if j = x then result else (s.getV j).toNat := by
  rw [getV_setResultFlag, apply_ite BitVec.toNat, apply_ite BitVec.toNat, hr, hf]

@[simp] theorem flagByte_toNat (b : Bool) : (flagByte b).toNat = b.toNat := by
  cases b <;> rfl

theorem carryFlag_toNat (a b : Byte) :
    (flagByte (carryFlag a b)).toNat = if 255 < a.toNat + b.toNat then 1 else 0 := by
  rw [flagByte_toNat, carryFlag, Bool.toNat, Bool.cond_decide]

theorem noBorrowFlag_toNat (a b : Byte) : (flagByte (noBorrowFlag a b)).toNat = if b.toNat ≤ a.toNat then 1 else 0 := by
  rw [flagByte_toNat, noBorrowFlag, Bool.toNat, Bool.cond_decide]

theorem shiftedOutRight_toNat (a : Byte) : (flagByte (shiftedOutRight a)).toNat = a.toNat % 2 := by
  rw [flagByte_toNat, shiftedOutRight, BitVec.getLsbD, Nat.toNat_testBit, Nat.pow_zero, Nat.div_one]

theorem shiftedOutLeft_toNat (a : Byte) : (flagByte (shiftedOutLeft a)).toNat = a.toNat / 128 := by
  have ha := a.isLt
  rw [flagByte_toNat, shiftedOutLeft, BitVec.getLsbD, Nat.toNat_testBit]
  omega

theorem byte_sub_toNat (a b : Byte) : (a - b).toNat = (a.toNat + 256 - b.toNat) % 256 := by
  have hb := b.isLt
  rw [BitVec.toNat_sub]
  omega

theorem byte_shiftRight_one_toNat (a : Byte) : (a >>> 1).toNat = a.toNat / 2 := by
  rw [BitVec.toNat_ushiftRight, Nat.shiftRight_eq_div_pow, Nat.pow_one]

theorem byte_shiftLeft_one_toNat (a : Byte) : (a <<< 1).toNat = a.toNat * 2 % 256 := by
  rw [BitVec.toNat_shiftLeft, Nat.shiftLeft_eq, Nat.pow_one]

/-- Settles O26: `setResultFlag` of the sum of bytes and the carry, both of the operands as they were. -/
theorem addRegistersWritesSumThenCarry : Obligations.AddRegistersWritesSumThenCarry := by
  intro x y s
  have hadd : decodeWord (packXYN 0x8#4 x y 0x4#4) = .addVxVy x y := decodeWord_encode (i := .addVxVy x y) rfl
  exact ⟨hadd, _, rfl, rfl, getV_setResultFlag_toNat (BitVec.toNat_add ..) (carryFlag_toNat ..)⟩

/-- Settles O27: SUBN is SUB with the operands exchanged. -/
theorem subtractionsWriteDifferenceThenNoBorrow : Obligations.SubtractionsWriteDifferenceThenNoBorrow := by
  intro x y s
  have hsub : decodeWord (packXYN 0x8#4 x y 0x5#4) = .subVxVy x y := decodeWord_encode (i := .subVxVy x y) rfl
  have hsubn : decodeWord (packXYN 0x8#4 x y 0x7#4) = .subnVxVy x y := decodeWord_encode (i := .subnVxVy x y) rfl
  exact ⟨hsub, hsubn,
    ⟨_, rfl, rfl, getV_setResultFlag_toNat (byte_sub_toNat ..) (noBorrowFlag_toNat ..)⟩,
    ⟨_, rfl, rfl, getV_setResultFlag_toNat (byte_sub_toNat ..) (noBorrowFlag_toNat ..)⟩⟩

/-- Settles O28: the words are aliases in their y field, and the bit shifted out is the remainder, or the quotient by
128, of the old V[x]. -/
theorem shiftsWriteResultThenBitOut : Obligations.ShiftsWriteResultThenBitOut := by
  intro x a s
  obtain ⟨-, -, -, -, -, -, hshr, hshl⟩ := aliasesDecodeAsTheCanonicalWord a a x a
  exact ⟨hshr, hshl,
    ⟨_, rfl, rfl, getV_setResultFlag_toNat (byte_shiftRight_one_toNat _) (shiftedOutRight_toNat _)⟩,
    ⟨_, rfl, rfl, getV_setResultFlag_toNat (byte_shiftLeft_one_toNat _) (shiftedOutLeft_toNat _)⟩⟩

end Sys2Proof.Proofs
end

section
/-! The index register and the indirect memory operations (spec/42_index_memory.md): the values of I, what LD B and
LD [I] store, what LD Vx, [I] loads; the statements O29 to O33. -/

namespace Sys2Proof.Proofs

open Sys2Proof Sys2Proof.Machine Sys2Proof.Claims

/-! ## The index register (R170 to R172) -/

@[simp] theorem zextByte_toNat (b : Byte) : (zextByte b).toNat = b.toNat :=
  BitVec.toNat_setWidth_of_le (by decide)

theorem add_zextByte_toNat (w : Word) (b : Byte) : (w + zextByte b).toNat = (w.toNat + b.toNat) % 65536 := by
  rw [BitVec.toNat_add, zextByte_toNat]

/-- At most 0x050 + 5 * 255, so the address of a glyph does not wrap (R172). -/
@[simp] theorem glyphAddr_toNat (v : Byte) : (glyphAddr v).toNat = 0x050 + 5 * v.toNat := by
  have hv := v.isLt
  simp only [glyphAddr, Config.fontBase, BitVec.toNat_add, BitVec.toNat_mul, BitVec.toNat_ofNat, zextByte_toNat]
  omega

/-- Settles O29: each instruction is one update of I, to `zextAddr`, a sum of words or `glyphAddr`. -/
theorem indexInstructionsSetOnlyI : Obligations.IndexInstructionsSetOnlyI := by
  intro nnn x s
  have hld : decodeWord (packA 0xA#4 nnn) = .ldIAddr nnn := decodeWord_encode (i := .ldIAddr nnn) rfl
  have hadd : decodeWord (packXK 0xF#4 x 0x1E#8) = .addIVx x := decodeWord_encode (i := .addIVx x) rfl
  have hglyph : decodeWord (packXK 0xF#4 x 0x29#8) = .ldFVx x := decodeWord_encode (i := .ldFVx x) rfl
  exact ⟨hld, hadd, hglyph, ⟨_, rfl, rfl, zextAddr_toNat nnn⟩, ⟨_, rfl, rfl, add_zextByte_toNat s.I (s.getV x)⟩,
    ⟨_, rfl, rfl, glyphAddr_toNat (s.getV x)⟩⟩

/-! ## What a store leaves in memory (R173, R174) -/

section
variable {i : Instr} {x : Nibble} {s t : State} {a : Nat}

theorem read_of_storedByte_eq_some {v : Byte} (hwf : s.memory.wf = true) (h : exec i s = .next t)
    (hstored : storedByte i s a = some v) : t.memory.read a = v := by
  rw [exec_memory_read hwf h, hstored, Option.getD_some]

theorem read_of_storedByte_eq_none (hwf : s.memory.wf = true) (h : exec i s = .next t)
    (hkept : storedByte i s a = none) : t.memory.read a = s.memory.read a := by
  rw [exec_memory_read hwf h, hkept, Option.getD_none]

theorem storedByte_ldBVx_digit (hok : faultOf (.ldBVx x) s = none) {k : Nat}
    (hk : k < (bcdDigits (s.getV x)).length) :
    storedByte (.ldBVx x) s (s.I.toNat + k) = some (bcdDigits (s.getV x))[k] := by
  rw [storedByte_ldBVx hok, dif_pos (by omega)]
  simp only [Nat.add_sub_cancel_left]

theorem storedByte_ldBVx_outside (hok : faultOf (.ldBVx x) s = none) (ha : a < s.I.toNat ∨ s.I.toNat + 2 < a) :
    storedByte (.ldBVx x) s a = none := by
  have hlen := bcdDigits_length (s.getV x)
  rw [storedByte_ldBVx hok, dif_neg (by omega)]

theorem storedByte_ldMemVx_register (hok : faultOf (.ldMemVx x) s = none) {k : Nibble} (hk : k.toNat ≤ x.toNat) :
    storedByte (.ldMemVx x) s (s.I.toNat + k.toNat) = some (s.getV k) := by
  simp [storedByte, hok, hk]

theorem storedByte_ldMemVx_outside (hok : faultOf (.ldMemVx x) s = none)
    (ha : a < s.I.toNat ∨ s.I.toNat + x.toNat < a) : storedByte (.ldMemVx x) s a = none := by
  have hlen := registersUpTo_length s x
  rw [storedByte_ldMemVx hok, dif_neg (by omega)]

end

/-- The three digits of a byte are bytes (R173). -/
theorem bcdDigits_toNat (v : Byte) :
    (bcdDigits v)[0].toNat = v.toNat / 100 ∧ (bcdDigits v)[1].toNat = v.toNat / 10 % 10 ∧
      (bcdDigits v)[2].toNat = v.toNat % 10 := by
  have hv := v.isLt
  simp only [bcdDigits, List.getElem_cons_zero, List.getElem_cons_succ, BitVec.toNat_ofNat]
  omega

/-- Settles O30: the three bytes at I are the digits that LD B spells, and every other byte is kept; past 0xFFF the
fault's record. -/
theorem decimalStoreWritesThreeDigits : Obligations.DecimalStoreWritesThreeDigits := by
  intro x s hwf
  have hdecode : decodeWord (packXK 0xF#4 x 0x33#8) = .ldBVx x := decodeWord_encode (i := .ldBVx x) rfl
  refine ⟨hdecode, fun hfit => ?_, fun hpast => exec_of_faultOf_some (if_pos hpast)⟩
  have hok : faultOf (.ldBVx x) s = none := if_neg (Nat.not_lt.mpr hfit)
  have hexec := exec_ldBVx hok
  have hread (k : Nat) (hk : k < 3) := read_of_storedByte_eq_some hwf hexec (storedByte_ldBVx_digit hok hk)
  obtain ⟨hundreds, tens, units⟩ := bcdDigits_toNat (s.getV x)
  exact ⟨_, hexec, rfl,
    (congrArg BitVec.toNat (hread 0 (by decide))).trans hundreds,
    (congrArg BitVec.toNat (hread 1 (by decide))).trans tens,
    (congrArg BitVec.toNat (hread 2 (by decide))).trans units,
    fun a ha => read_of_storedByte_eq_none hwf hexec (storedByte_ldBVx_outside hok ha)⟩

/-- Settles O31: the byte at I + k is the register V[k] that LD [I] spells there, and every other byte is kept; past
0xFFF the fault's record. -/
theorem registerStoreWritesVZeroToVx : Obligations.RegisterStoreWritesVZeroToVx := by
  intro x s hwf
  have hdecode : decodeWord (packXK 0xF#4 x 0x55#8) = .ldMemVx x := decodeWord_encode (i := .ldMemVx x) rfl
  refine ⟨hdecode, fun hfit => ?_, fun hpast => exec_of_faultOf_some (if_pos hpast)⟩
  have hok : faultOf (.ldMemVx x) s = none := if_neg (Nat.not_lt.mpr hfit)
  have hexec := exec_ldMemVx hok
  exact ⟨_, hexec, rfl,
    fun k hk => read_of_storedByte_eq_some hwf hexec (storedByte_ldMemVx_register hok hk),
    fun a ha => read_of_storedByte_eq_none hwf hexec (storedByte_ldMemVx_outside hok ha)⟩

/-! ## What LD Vx, [I] loads (R175) -/

/-- A run of n bytes goes to V0 upward; the registers past it stay. -/
theorem getV_writeRegs_readBytes (s : State) (m : Memory) (a n : Nat) (k : Nibble) :
    ({ s with V := writeRegs s.V 0 (m.readBytes a n) } : State).getV k =
      if k.toNat < n then m.read (a + k.toNat) else s.getV k := by
  rw [State.getV, writeRegs_getElem]
  simp [State.getV]

/-- Settles O32: the run of x + 1 bytes at I goes to V0 to Vx; past 0xFFF the fault's record. -/
theorem registerLoadReadsVZeroToVx : Obligations.RegisterLoadReadsVZeroToVx := by
  intro x s
  have hdecode : decodeWord (packXK 0xF#4 x 0x65#8) = .ldVxMem x := decodeWord_encode (i := .ldVxMem x) rfl
  refine ⟨hdecode, fun hfit => ?_, fun hpast => exec_of_faultOf_some (if_pos hpast)⟩
  have hok : faultOf (.ldVxMem x) s = none := if_neg (Nat.not_lt.mpr hfit)
  refine ⟨_, exec_ldVxMem hok, rfl, fun k => ?_⟩
  simp only [getV_writeRegs_readBytes, Nat.lt_succ_iff]

/-- Settles O33: what O31 says of the byte at I + k meets what O32 says of the register loaded from there, since the
store keeps I. -/
theorem storedRegistersLoadBack : Obligations.StoredRegistersLoadBack := by
  intro x s t W hwf hfit hstore
  obtain ⟨-, hstored, -⟩ := registerStoreWritesVZeroToVx x s hwf
  obtain ⟨t', hstore', hframe, hbytes, -⟩ := hstored hfit
  obtain rfl : t = t' := Host.Outcome.next.inj (hstore.symm.trans hstore')
  have hI : t.I = s.I := by rw [hframe]
  obtain ⟨-, hloaded, -⟩ := registerLoadReadsVZeroToVx x { t with V := W }
  have hfit' : t.I.toNat + x.toNat ≤ 0xFFF := by rwa [hI]
  obtain ⟨u, hload, -, hregs⟩ := hloaded hfit'
  refine ⟨u, hload, fun k hk => ?_⟩
  calc u.getV k = t.memory.read (t.I.toNat + k.toNat) := (hregs k).trans (if_pos hk)
    _ = t.memory.read (s.I.toNat + k.toNat) := by rw [hI]
    _ = s.getV k := hbytes k hk

end Sys2Proof.Proofs
end

section
/-! The framebuffer (spec/43_display.md): drawing a pixel, a row and a sprite as toggling a set of pixels; the
statements O35 to O37. -/

namespace Sys2Proof.Proofs

open Sys2Proof Sys2Proof.Machine Sys2Proof.Claims

/-! ## Clear (R190) -/

/-- Settles O35: the framebuffer of CLS is one value in every entry, and its words are aliases. -/
theorem clearTurnsEveryPixelOff : Obligations.ClearTurnsEveryPixelOff := by
  refine ⟨fun a b => ?_, fun s => ⟨_, rfl, rfl, fun p hp => Vector.getElem_replicate hp⟩⟩
  obtain ⟨hcls, -⟩ := aliasesDecodeAsTheCanonicalWord a b a b
  exact hcls

/-! ## Toggling a set of pixels (R192 lines 9 to 12) -/

/-- `c'` is `c` with the pixels of `bits` toggled, and a collision where one of them was on. -/
structure Toggles (bits : Nat → Nat → Bool) (c c' : Canvas) : Prop where
  pixel : ∀ px py (hx : px < 64) (hy : py < 32), c'.1[py * 64 + px] = (c.1[py * 64 + px] ^^ bits px py)
  collision : c'.2 = true ↔ c.2 = true ∨
    ∃ px py, ∃ (hx : px < 64) (hy : py < 32), bits px py = true ∧ c.1[py * 64 + px] = true

section
variable {bits bits' : Nat → Nat → Bool} {c c' c'' : Canvas}

theorem Toggles.none (h : ∀ px py, bits px py = false) : Toggles bits c c where
  pixel px py hx hy := by rw [h, Bool.xor_false]
  collision := by simp [h]

/-- Where no pixel is toggled twice, the second set sees each of its pixels as it was at first. -/
theorem Toggles.trans (h : Toggles bits c c') (h' : Toggles bits' c' c'')
    (hdisjoint : ∀ px py, bits' px py = true → bits px py = false) :
    Toggles (fun px py => bits px py || bits' px py) c c'' where
  pixel px py hx hy := by
    rw [h'.pixel px py hx hy, h.pixel px py hx hy, Bool.xor_assoc]
    have hpx := hdisjoint px py
    cases hb : bits' px py
    · rw [Bool.xor_false, Bool.or_false]
    · rw [hpx hb, Bool.false_xor, Bool.false_or]
  collision := by
    have hkept (px py : Nat) (hx : px < 64) (hy : py < 32) (hb : bits' px py = true) :
        c'.1[py * 64 + px] = c.1[py * 64 + px] := by
      rw [h.pixel px py hx hy, hdisjoint px py hb, Bool.xor_false]
    rw [h'.collision, h.collision, or_assoc]
    refine or_congr_right ⟨?_, ?_⟩
    · rintro (⟨px, py, hx, hy, hb, hon⟩ | ⟨px, py, hx, hy, hb, hon⟩)
      · exact ⟨px, py, hx, hy, by simp [hb], hon⟩
      · exact ⟨px, py, hx, hy, by simp [hb], by rwa [← hkept px py hx hy hb]⟩
    · rintro ⟨px, py, hx, hy, hb, hon⟩
      rcases Bool.or_eq_true_iff.mp hb with hb | hb
      · exact .inl ⟨px, py, hx, hy, hb, hon⟩
      · exact .inr ⟨px, py, hx, hy, hb, by rwa [hkept px py hx hy hb]⟩

theorem Toggles.congr (h : Toggles bits c c') (hbits : ∀ px py, bits' px py = bits px py) : Toggles bits' c c' := by
  obtain rfl : bits' = bits := funext₂ hbits
  exact h

end

/-! ## A pixel, a row, a sprite (R191, R192) -/

theorem plotPixel_toggles (qx qy : Nat) (c : Canvas) :
    Toggles (fun px py => decide (px = qx ∧ py = qy)) c (plotPixel qx qy c) where
  pixel px py hx hy := by
    obtain ⟨hpixel, -⟩ := plotPixel_spec qx qy c (py * 64 + px) (by omega)
    rw [hpixel]
    by_cases h : px = qx ∧ py = qy
    · rw [if_pos (by omega)]; simp [h]
    · rw [if_neg (by omega)]; simp [h]
  collision := by
    obtain ⟨-, hcollision⟩ := plotPixel_spec qx qy c 0 (by omega)
    rw [hcollision, Bool.or_eq_true_iff]
    refine or_congr_right ⟨fun h => ?_, ?_⟩
    · split at h
      · next hin => exact ⟨qx, qy, by omega, by omega, by simp, h⟩
      · cases h
    · rintro ⟨px, py, hx, hy, hb, hon⟩
      obtain ⟨rfl, rfl⟩ := of_decide_eq_true hb
      rw [dif_pos (by omega)]
      exact hon

/-- The first k columns of a sprite row have a set bit over the pixel. -/
def rowBit (b : Byte) (xs k row px py : Nat) : Bool :=
  decide (xs ≤ px ∧ px < xs + k ∧ py = row) && b.getLsbD (7 - (px - xs))

theorem rowBit_succ (b : Byte) (xs k row px py : Nat) :
    rowBit b xs (k + 1) row px py =
      (rowBit b xs k row px py || (decide (px = xs + k ∧ py = row) && b.getLsbD (7 - k))) := by
  by_cases h : px = xs + k
  · subst h; simp [rowBit]
  · have hlt : px < xs + (k + 1) ↔ px < xs + k := by omega
    simp [rowBit, h, hlt]

theorem drawColumns_toggles (b : Byte) (xs row : Nat) (c : Canvas) (k : Nat) :
    Toggles (rowBit b xs k row) c
      ((List.range k).foldl (fun c col => if b.getLsbD (7 - col) then plotPixel (xs + col) row c else c) c) := by
  induction k with
  | zero => exact Toggles.none fun px py => by simp [rowBit]; omega
  | succ k ih =>
    rw [List.range_succ, List.foldl_append, List.foldl_cons, List.foldl_nil]
    split
    · next hb =>
      have hnew : ∀ px py, decide (px = xs + k ∧ py = row) = true → rowBit b xs k row px py = false := by
        intro px py h
        obtain ⟨rfl, rfl⟩ := of_decide_eq_true h
        simp [rowBit]
      exact (ih.trans (plotPixel_toggles (xs + k) row _) hnew).congr fun px py => by simp [rowBit_succ, hb]
    · next hb => exact ih.congr fun px py => by simp [rowBit_succ, hb]

theorem drawRow_toggles (b : Byte) (xs row : Nat) (c : Canvas) :
    Toggles (rowBit b xs 8 row) c (drawRow b xs row c) :=
  drawColumns_toggles b xs row c 8

/-- The sprite of n bytes at address a, drawn from (xs, ys), has a set bit over the pixel. -/
def spriteBitAt (m : Memory) (a xs ys n px py : Nat) : Bool :=
  decide (xs ≤ px ∧ px < xs + 8 ∧ ys ≤ py ∧ py < ys + n) && (m.read (a + (py - ys))).getLsbD (7 - (px - xs))

theorem spriteBit_eq (x y n : Nibble) (s : State) :
    spriteBit x y n s = spriteBitAt s.memory s.I.toNat (spriteColumn s x) (spriteRow s y) n.toNat := rfl

theorem spriteBitAt_succ (m : Memory) (a xs ys n px py : Nat) :
    spriteBitAt m a xs ys (n + 1) px py =
      (rowBit (m.read a) xs 8 ys px py || spriteBitAt m (a + 1) xs (ys + 1) n px py) := by
  rcases lt_trichotomy py ys with h | rfl | h
  · simp [rowBit, spriteBitAt, h.ne, h.not_ge, Nat.not_lt.mpr h.le]
  · simp [rowBit, spriteBitAt]
  · have hbyte : a + 1 + (py - (ys + 1)) = a + (py - ys) := by omega
    have hlast : py < ys + (n + 1) ↔ py < ys + 1 + n := by omega
    simp [rowBit, spriteBitAt, h.ne', h, h.le, hbyte, hlast]

theorem drawRows_toggles (m : Memory) (xs a ys n : Nat) (c : Canvas) :
    Toggles (spriteBitAt m a xs ys n) c (drawRows xs ys (m.readBytes a n) c) := by
  induction n generalizing a ys c with
  | zero => exact Toggles.none fun px py => by simp [spriteBitAt]
  | succ n ih =>
    have hbelow : ∀ px py, spriteBitAt m (a + 1) xs (ys + 1) n px py = true →
        rowBit (m.read a) xs 8 ys px py = false := by
      intro px py h
      simp only [spriteBitAt, Bool.and_eq_true, decide_eq_true_eq] at h
      have hrow : py ≠ ys := by omega
      simp [rowBit, hrow]
    exact ((drawRow_toggles (m.read a) xs ys c).trans (ih (a + 1) (ys + 1) _) hbelow).congr
      (spriteBitAt_succ m a xs ys n)

theorem drawnCanvas_toggles (x y n : Nibble) (s : State) :
    Toggles (spriteBit x y n s) (s.video, false) (drawnCanvas x y n s) := by
  rw [spriteBit_eq]
  exact drawRows_toggles ..

/-! ## Draw (R192, R195) -/

theorem flagByte_eq_one_iff (b : Bool) : flagByte b = 1#8 ↔ b = true := by
  cases b <;> decide

theorem flagByte_eq_one_or_zero (b : Bool) : flagByte b = 1#8 ∨ flagByte b = 0#8 := by
  cases b <;> decide

theorem getV_drawSprite_VF (x y n : Nibble) (s : State) :
    (drawSprite x y n s).getV 0xF#4 = flagByte (drawnCanvas x y n s).2 :=
  getV_setV_self ..

theorem getV_drawSprite_ne (x y n : Nibble) (s : State) {j : Nibble} (hj : j ≠ 0xF#4) :
    (drawSprite x y n s).getV j = s.getV j :=
  getV_setV_ne _ _ hj

theorem faultOf_drwVxVyN_of_inRange {x y n : Nibble} {s : State} (h : spriteInRange n s) :
    faultOf (.drwVxVyN x y n) s = none :=
  if_neg (by unfold spriteInRange at h; omega)

theorem faultOf_drwVxVyN_of_not_inRange {x y n : Nibble} {s : State} (h : ¬ spriteInRange n s) :
    faultOf (.drwVxVyN x y n) s = some (.memData, s.I.toNat + n.toNat - 1) :=
  if_pos (by unfold spriteInRange at h; omega)

/-- Settles O36: DRW toggles the pixels under the sprite's set bits, once each, and VF is the collision of that. -/
theorem drawIsTheClippedXorBlit : Obligations.DrawIsTheClippedXorBlit := by
  intro x y n s
  have hdecode : decodeWord (packXYN 0xD#4 x y n) = .drwVxVyN x y n := decodeWord_encode (i := .drwVxVyN x y n) rfl
  refine ⟨hdecode, fun hin => ?_, fun hout => exec_of_faultOf_some (faultOf_drwVxVyN_of_not_inRange hout)⟩
  obtain ⟨hpixel, hcollision⟩ := drawnCanvas_toggles x y n s
  refine ⟨_, exec_drwVxVyN (faultOf_drwVxVyN_of_inRange hin), rfl, hpixel,
    fun j => getV_drawSprite_ne x y n s, ?_, ?_⟩
  · rw [getV_drawSprite_VF]
    exact flagByte_eq_one_or_zero _
  · rw [getV_drawSprite_VF, flagByte_eq_one_iff, hcollision, or_iff_right Bool.false_ne_true]

/-- Sprites of one height, start position and bytes have the same set bits, wherever they lie in memory. -/
theorem spriteBit_congr {x y x' y' n : Nibble} {s s' : State} (hx : (s.getV x).toNat % 64 = (s'.getV x').toNat % 64)
    (hy : (s.getV y).toNat % 32 = (s'.getV y').toNat % 32)
    (hbytes : ∀ r, r < n.toNat → s.memory.read (s.I.toNat + r) = s'.memory.read (s'.I.toNat + r)) (px py : Nat) :
    spriteBit x' y' n s' px py = spriteBit x y n s px py := by
  simp only [spriteBit, ← hx, ← hy]
  by_cases hover : (s.getV x).toNat % 64 ≤ px ∧ px < (s.getV x).toNat % 64 + 8 ∧
      (s.getV y).toNat % 32 ≤ py ∧ py < (s.getV y).toNat % 32 + n.toNat
  · rw [hbytes _ (by omega)]
  · simp only [hover, decide_false, Bool.false_and]

/-- Every entry of the framebuffer is a pixel (R191). -/
theorem exists_pixel {p : Nat} (hp : p < 2048) : ∃ px py, px < 64 ∧ py < 32 ∧ p = py * 64 + px :=
  ⟨p % 64, p / 64, by omega, by omega, (Nat.div_add_mod' p 64).symm⟩

/-- Settles O37: what O36 says of both draws; a pixel under a set bit is on for the second draw exactly when the
first one turned it on. -/
theorem drawingTwiceRestoresTheFramebuffer : Obligations.DrawingTwiceRestoresTheFramebuffer := by
  intro x y x' y' n s s' t hin hin' hcol hrow hbytes hfirst hvideo
  obtain ⟨-, hdraw, -⟩ := drawIsTheClippedXorBlit x y n s
  obtain ⟨t', hfirst', -, hpixel, -⟩ := hdraw hin
  obtain rfl : t = t' := Host.Outcome.next.inj (hfirst.symm.trans hfirst')
  obtain ⟨-, hdraw', -⟩ := drawIsTheClippedXorBlit x' y' n s'
  obtain ⟨u, hsecond, -, hpixel', -, -, hVF⟩ := hdraw' hin'
  simp only [spriteBit_congr hcol hrow hbytes, hvideo] at hpixel' hVF
  refine ⟨u, hsecond, Vector.ext fun p hp => ?_, hVF.trans ⟨?_, ?_⟩⟩
  · obtain ⟨px, py, hx, hy, rfl⟩ := exists_pixel hp
    rw [hpixel' px py hx hy, hpixel px py hx hy, Bool.xor_assoc, Bool.xor_self, Bool.xor_false]
  · rintro ⟨px, py, hx, hy, hbit, hon⟩
    have hoff : s.video[py * 64 + px] = false := by simpa [hpixel px py hx hy, hbit] using hon
    exact ⟨py * 64 + px, by omega, hoff, hon⟩
  · rintro ⟨p, hp, hoff, hon⟩
    obtain ⟨px, py, hx, hy, rfl⟩ := exists_pixel hp
    have hbit : spriteBit x y n s px py = true := by simpa [hpixel px py hx hy, hoff] using hon
    exact ⟨px, py, hx, hy, hbit, hon⟩

end Sys2Proof.Proofs
end

section
/-! Keys, timers and random (spec/44_keypad_timers_random.md), and what a Step can do to the timers; the statements O21,
O38 to O40 and O47. -/

namespace Sys2Proof.Proofs

open Sys2Proof Sys2Proof.Machine

/-! ## What a Step changes comes from its instruction (R91, R219, R234) -/

/-- A field that a faulted Step leaves alone differs after a Step only where the Step's state is what its
instruction left. -/
theorem exec_of_stepCycle_changes {α : Type} {field : State → α}
    (hfaulted : ∀ s f, field (faultedStep s f) = field s) {s t : State} (h : stepCycle s = .next t)
    (hchanged : field t ≠ field s) : exec (decodeWord (fetchedWord s)) (preAdvanced s) = .next t := by
  obtain ⟨-, rfl⟩ | ⟨-, -, rfl⟩ | ⟨-, -, hcommit⟩ := (stepCycle_next_iff s t).mp h
  · exact absurd rfl hchanged
  · exact absurd (hfaulted s _) hchanged
  · obtain ⟨u, hexec, ⟨-, rfl⟩ | ⟨-, rfl⟩⟩ := (commit_next_iff s t _).mp hcommit
    · exact absurd (hfaulted s _) hchanged
    · exact hexec

theorem exec_DT {i : Instr} {s t : State} (h : exec i s = .next t) (hdt : ∀ x, i ≠ .ldDtVx x) : t.DT = s.DT := by
  obtain ⟨-, -, -, hDT, -⟩ := otherStateChangesOnlyAsNamed i s t h
  by_contra hne
  obtain ⟨x, rfl⟩ := hDT hne
  exact hdt x rfl

/-- A byte that one instruction alone changes, by a copy of V[x], changes in a Step only by that copy. -/
theorem stepCycle_changes_by_load {timer : State → Byte} {load : Nibble → Instr}
    (hfaulted : ∀ s f, timer (faultedStep s f) = timer s) (hpre : ∀ s, timer (preAdvanced s) = timer s)
    (hother : ∀ {i s t}, exec i s = .next t → (∀ x, i ≠ load x) → timer t = timer s)
    (hload : ∀ {x s t}, exec (load x) s = .next t → timer t = s.getV x)
    {s t : State} (h : stepCycle s = .next t) (hchanged : timer t ≠ timer s) :
    ∃ x, decodeWord (fetchedWord s) = load x ∧ timer t = s.getV x := by
  have hexec := exec_of_stepCycle_changes hfaulted h hchanged
  by_cases hcase : ∃ x, decodeWord (fetchedWord s) = load x
  · obtain ⟨x, hx⟩ := hcase
    rw [hx] at hexec
    have hcopied : timer t = (preAdvanced s).getV x := hload hexec
    exact ⟨x, hx, hcopied⟩
  · exact absurd ((hother hexec (not_exists.mp hcase)).trans (hpre s)) hchanged

/-- Settles O47: each timer has one load, and its arm of `exec` copies V[x]. -/
theorem stepsDoNotCountTimers : Obligations.StepsDoNotCountTimers := by
  intro s t h
  constructor
  · have hcopy {x s t} (h : exec (.ldDtVx x) s = .next t) : t.DT = s.getV x := by cases h; rfl
    exact stepCycle_changes_by_load faultedStep_DT preAdvanced_DT exec_DT hcopy h
  · have hcopy {x s t} (h : exec (.ldStVx x) s = .next t) : t.ST = s.getV x := by cases h; rfl
    exact stepCycle_changes_by_load faultedStep_ST preAdvanced_ST exec_ST hcopy h

/-! ## Keys (R210 to R212) -/

/-- Settles O21: both skips are `skipIf` of the key that the low nibble selects; their words are aliases in bits 7:4. -/
theorem keySkipsTestTheLowNibble : Obligations.KeySkipsTestTheLowNibble := by
  intro x a s k hk
  obtain ⟨-, -, -, -, hskp, hsknp, -⟩ := aliasesDecodeAsTheCanonicalWord a a x a
  rw [eq_keyIndex hk]
  exact ⟨hskp, hsknp, congrArg _ (skipIf_eq_of_iff Iff.rfl s),
    congrArg _ (skipIf_eq_of_iff (iff_of_eq (Bool.not_eq_true' _)) s)⟩

/-- Settles O38: a smallest pressed key is what `lowestPressedKey` finds; with none pressed it finds nothing. -/
theorem keyWaitStoresTheLowestKeyOrStays : Obligations.KeyWaitStoresTheLowestKeyOrStays := by
  intro x s
  have hdecode : decodeWord (packXK 0xF#4 x 0x0A#8) = .ldVxK x := decodeWord_encode (i := .ldVxK x) rfl
  refine ⟨hdecode, fun k hdown hsmallest => ?_, fun hup => ?_⟩
  · have hlowest := (lowestPressedKey_some s k).mpr ⟨hdown, hsmallest⟩
    have hexec := (exec_ldVxK_next_iff x s _).mpr (.inl ⟨k, hlowest, rfl⟩)
    have hbyte : (k.setWidth 8 : Byte).toNat = k.toNat := BitVec.toNat_setWidth_of_le (by decide)
    exact ⟨_, hexec, rfl, getV_setV_toNat hbyte⟩
  · exact (exec_ldVxK_next_iff x s _).mpr (.inr ⟨(lowestPressedKey_none s).mpr hup, rfl⟩)

/-! ## Timers (R213 to R215) -/

/-- Settles O39: one `setV` of DT, and one write of each timer. -/
theorem timerMovesCopyOneByte : Obligations.TimerMovesCopyOneByte := by
  intro x s
  have hread : decodeWord (packXK 0xF#4 x 0x07#8) = .ldVxDt x := decodeWord_encode (i := .ldVxDt x) rfl
  have hDT : decodeWord (packXK 0xF#4 x 0x15#8) = .ldDtVx x := decodeWord_encode (i := .ldDtVx x) rfl
  have hST : decodeWord (packXK 0xF#4 x 0x18#8) = .ldStVx x := decodeWord_encode (i := .ldStVx x) rfl
  exact ⟨hread, hDT, hST, ⟨_, rfl, rfl, fun j => getV_setV s x j s.DT⟩, rfl, rfl⟩

/-! ## Random (R216, R217) -/

/-- Settles O40: one `setV` of the masked draw, on the state whose source has advanced, which has the same registers. -/
theorem randomIsTheMaskedDraw : Obligations.RandomIsTheMaskedDraw := by
  intro x kk s
  have hdecode : decodeWord (packXK 0xC#4 x kk) = .rndVxKk x kk := decodeWord_encode (i := .rndVxKk x kk) rfl
  refine ⟨hdecode, s.advanceRng.setV x (s.randomByte &&& kk), rfl, rfl, fun j b => ?_, ?_⟩
  · exact getV_setV_getLsbD BitVec.getLsbD_and j
  · rw [getV_setV_self, BitVec.and_assoc, BitVec.and_not_self]
    exact BitVec.and_zero

end Sys2Proof.Proofs
end

section
/-! Faults (spec/60_exceptions.md, R231 to R235): where a Step raises one, what its record says, and that nothing but
Reset changes it; the statements O41 to O43 and O56. -/

namespace Sys2Proof.Proofs

open Sys2Proof Sys2Proof.Machine Sys2Proof.Claims

/-! ## The rows of R231 -/

/-- Which rows there are, each with its condition, and the address it records. -/
theorem faultOf_some_cases {i : Instr} {s : State} {c : Cause} {a : Nat} (h : faultOf i s = some (c, a)) :
    (c = .stackOverflow ∧ a = 0 ∧ s.sp.val = 16 ∧ ∃ nnn, i = .call nnn) ∨
    (c = .stackUnderflow ∧ a = 0 ∧ s.sp.val = 0 ∧ i = .ret) ∨
    (c = .memData ∧ 0xFFF < a ∧
      ((∃ x y n, i = .drwVxVyN x y n ∧ 0 < n.toNat ∧ a = s.I.toNat + n.toNat - 1) ∨
       (∃ x, i = .ldBVx x ∧ a = s.I.toNat + 2) ∨
       (∃ x, i = .ldMemVx x ∧ a = s.I.toNat + x.toNat) ∨
       (∃ x, i = .ldVxMem x ∧ a = s.I.toNat + x.toNat))) := by
  cases i with
  | call nnn =>
    obtain ⟨hfull, hrow⟩ := Option.ite_none_right_eq_some.mp h
    cases hrow
    exact .inl ⟨rfl, rfl, hfull, nnn, rfl⟩
  | ret =>
    obtain ⟨hempty, hrow⟩ := Option.ite_none_right_eq_some.mp h
    cases hrow
    exact .inr (.inl ⟨rfl, rfl, hempty, rfl⟩)
  | drwVxVyN x y n =>
    obtain ⟨⟨hrows, hlast⟩, hrow⟩ := Option.ite_none_right_eq_some.mp h
    cases hrow
    exact .inr (.inr ⟨rfl, hlast, .inl ⟨x, y, n, rfl, hrows, rfl⟩⟩)
  | ldBVx x =>
    obtain ⟨hlast, hrow⟩ := Option.ite_none_right_eq_some.mp h
    cases hrow
    exact .inr (.inr ⟨rfl, hlast, .inr (.inl ⟨x, rfl, rfl⟩)⟩)
  | ldMemVx x =>
    obtain ⟨hlast, hrow⟩ := Option.ite_none_right_eq_some.mp h
    cases hrow
    exact .inr (.inr ⟨rfl, hlast, .inr (.inr (.inl ⟨x, rfl, rfl⟩))⟩)
  | ldVxMem x =>
    obtain ⟨hlast, hrow⟩ := Option.ite_none_right_eq_some.mp h
    cases hrow
    exact .inr (.inr ⟨rfl, hlast, .inr (.inr (.inr ⟨x, rfl, rfl⟩))⟩)
  | _ => cases h

/-- MEM_FETCH is no row of an instruction. -/
theorem faultOf_cause_ne_memFetch {i : Instr} {s : State} {c : Cause} {a : Nat} (h : faultOf i s = some (c, a)) :
    c ≠ .memFetch := by
  obtain ⟨rfl, -⟩ | ⟨rfl, -⟩ | ⟨rfl, -⟩ := faultOf_some_cases h <;> exact nofun

/-- The address of a row fits the 17 bits of `faddr` (R42). -/
theorem faultOf_faddr_toNat {i : Instr} {s : State} {c : Cause} {a : Nat} (h : faultOf i s = some (c, a)) :
    (BitVec.ofNat 17 a).toNat = a := by
  have hI := s.I.isLt
  have hfits : a < 2 ^ 17 := by
    obtain ⟨-, rfl, -⟩ | ⟨-, rfl, -⟩ |
      ⟨-, -, ⟨-, -, n, -, -, rfl⟩ | ⟨-, -, rfl⟩ | ⟨x, -, rfl⟩ | ⟨x, -, rfl⟩⟩ := faultOf_some_cases h
    · decide
    · decide
    · have := n.isLt; omega
    · omega
    · have := x.isLt; omega
    · have := x.isLt; omega
  rw [BitVec.toNat_ofNat, Nat.mod_eq_of_lt hfits]

/-- An instruction that completes leaves the record as it was. -/
theorem exec_fault {i : Instr} {s t : State} (hok : faultOf i s = none) (h : exec i s = .next t) :
    t.fault = s.fault := by
  cases i with
  | ret => obtain ⟨k, -, hret⟩ := exec_ret hok; rw [hret] at h; cases h; rfl
  | call => obtain ⟨k, -, hcall⟩ := exec_call hok; rw [hcall] at h; cases h; rfl
  | drwVxVyN => rw [exec_drwVxVyN hok] at h; cases h; rfl
  | ldBVx => rw [exec_ldBVx hok] at h; cases h; rfl
  | ldMemVx => rw [exec_ldMemVx hok] at h; cases h; rfl
  | ldVxMem => rw [exec_ldVxMem hok] at h; cases h; rfl
  | ldVxK x => obtain ⟨k, -, rfl⟩ | ⟨-, rfl⟩ := (exec_ldVxK_next_iff x s t).mp h <;> rfl
  | seVxKk | sneVxKk | seVxVy | sneVxVy | skpVx | sknpVx => cases h; exact skipIf_fault s _
  | _ => cases h; rfl

/-! ## What a Step does with the record -/

theorem stepCycle_of_halted {s : State} (h : s.fault.halted = true) : stepCycle s = .next s :=
  (stepCycle_next_iff s s).mpr (.inl ⟨h, rfl⟩)

/-- The record of a fault that the instruction at pc raises, in terms of the state at the start of the Step (R231). -/
def instrRecord (c : Cause) (a : Nat) (s : State) : FaultRecord :=
  { halted := true, cause := c, fpc := s.pc, fop := fetchedWord s, faddr := BitVec.ofNat 17 a }

/-- In the handler pc is 2 further, and the latch holds the word (R91). -/
theorem exec_preAdvanced_of_faultOf_some {i : Instr} {s : State} {c : Cause} {a : Nat}
    (h : faultOf i (preAdvanced s) = some (c, a)) :
    ∃ u, exec i (preAdvanced s) = .next u ∧ u.fault = instrRecord c a s := by
  have hpc : (preAdvanced s).pc - 2#16 = s.pc := BitVec.add_sub_cancel s.pc 2#16
  refine ⟨_, exec_of_faultOf_some h, ?_⟩
  rw [takeFault_fault, hpc]
  rfl

/-- Of an engine that runs: the fetch faults, the instruction faults and only its record is kept, or the instruction
completes and the record stays. -/
theorem stepCycle_fault_cases {s t : State} (hrun : s.fault.halted = false) (h : stepCycle s = .next t) :
    (0xFFE < s.pc.toNat ∧ t = faultedStep s (raiseFetch s).fault) ∨
    (s.pc.toNat ≤ 0xFFE ∧ ∃ c a, faultOf (decodeWord (fetchedWord s)) (preAdvanced s) = some (c, a) ∧
      t = faultedStep s (instrRecord c a s)) ∨
    (s.pc.toNat ≤ 0xFFE ∧ faultOf (decodeWord (fetchedWord s)) (preAdvanced s) = none ∧ t.fault = s.fault) := by
  obtain ⟨hhalted, -⟩ | ⟨-, hpast, rfl⟩ | ⟨-, hpc, hcommit⟩ := (stepCycle_next_iff s t).mp h
  · simp [hrun] at hhalted
  · exact .inl ⟨hpast, rfl⟩
  obtain ⟨u, hexec, hkept⟩ := (commit_next_iff s t _).mp hcommit
  rcases hf : faultOf (decodeWord (fetchedWord s)) (preAdvanced s) with _ | ⟨c, a⟩
  case none =>
    have hfault : u.fault = s.fault := (exec_fault hf hexec).trans (preAdvanced_fault s)
    obtain ⟨hhalted, -⟩ | ⟨-, rfl⟩ := hkept
    · simp [hfault, hrun] at hhalted
    · exact .inr (.inr ⟨hpc, rfl, hfault⟩)
  case some =>
    obtain ⟨u', hexec', hrecord⟩ := exec_preAdvanced_of_faultOf_some hf
    obtain rfl : u' = u := Host.Outcome.next.inj (hexec'.symm.trans hexec)
    rw [hrecord] at hkept
    obtain ⟨-, rfl⟩ | ⟨hgoesOn, -⟩ := hkept
    · exact .inr (.inl ⟨hpc, c, a, rfl, rfl⟩)
    · cases hgoesOn

/-! ## The record stays truthful through every event -/

theorem faultRecordTruthful_of_clear {s : State} (h : s.fault = FaultRecord.clear) : FaultRecordTruthful s := by
  unfold FaultRecordTruthful
  rw [h]
  exact ⟨fun _ => rfl, nofun, rfl⟩

theorem faultRecordTruthful_of_fetch {s : State} (hpast : 0xFFE < s.pc.toNat) :
    FaultRecordTruthful (faultedStep s (raiseFetch s).fault) := by
  have hfaddr : (BitVec.ofNat 17 (s.pc.toNat + 1)).toNat = s.pc.toNat + 1 := by
    have := s.pc.isLt
    rw [BitVec.toNat_ofNat, Nat.mod_eq_of_lt (by omega)]
  exact ⟨nofun, fun _ => rfl, rfl, rfl, hpast, hfaddr⟩

/-- Each row says of its record what `faultOf` tested: sp and I are those of the handler. -/
theorem faultRecordTruthful_of_faultOf {s : State} {c : Cause} {a : Nat}
    (h : faultOf (decodeWord (fetchedWord s)) (preAdvanced s) = some (c, a)) :
    FaultRecordTruthful (faultedStep s (instrRecord c a s)) := by
  have hfaddr := faultOf_faddr_toNat h
  refine ⟨nofun, fun _ => rfl, ?_⟩
  obtain ⟨rfl, rfl, hfull, hcall⟩ | ⟨rfl, rfl, hempty, hret⟩ | ⟨rfl, hlast, hrow⟩ := faultOf_some_cases h
  · exact ⟨rfl, rfl, hfull, hcall⟩
  · exact ⟨rfl, rfl, hempty, hret⟩
  · rw [← hfaddr] at hlast hrow
    exact ⟨rfl, hlast, hrow⟩

theorem stepCycle_faultRecordTruthful {s t : State} (hs : FaultRecordTruthful s) (h : stepCycle s = .next t) :
    FaultRecordTruthful t := by
  cases hrun : s.fault.halted with
  | true =>
    obtain rfl : s = t := Host.Outcome.next.inj ((stepCycle_of_halted hrun).symm.trans h)
    exact hs
  | false =>
    obtain ⟨hpast, rfl⟩ | ⟨-, c, a, hf, rfl⟩ | ⟨-, -, hkept⟩ := stepCycle_fault_cases hrun h
    · exact faultRecordTruthful_of_fetch hpast
    · exact faultRecordTruthful_of_faultOf hf
    · obtain ⟨hclear, -⟩ := hs
      exact faultRecordTruthful_of_clear (hkept.trans (hclear hrun))

theorem applyEvent_faultRecordTruthful {e : Event} {s t : State} (hs : FaultRecordTruthful s)
    (h : applyEvent e s = .next t) : FaultRecordTruthful t := by
  cases e with
  | step => exact stepCycle_faultRecordTruthful hs h
  | load b =>
    obtain ⟨-, rfl⟩ := (loadEvent_next_iff b s t).mp h
    exact hs
  | reset seed => cases h; exact faultRecordTruthful_of_clear rfl
  | tick | setKey | readFramebuffer => cases h; exact hs

/-- Settles O56: the event that is due keeps the record truthful, which does not speak of the schedule. -/
theorem everyStepKeepsTheFaultRecordTruthful : Obligations.EveryStepKeepsTheFaultRecordTruthful := by
  intro s t hs h
  rw [step_due] at h
  have hs' : FaultRecordTruthful { s with schedule := s.schedule.tail } := hs
  exact applyEvent_faultRecordTruthful hs' h

/-! ## The conditions, and the frame of a fault -/

/-- Settles O41: the instructions by `faultOf`, and a Step by the three cases of its record. -/
theorem exactlyTheListedConditionsFault : Obligations.ExactlyTheListedConditionsFault := by
  refine ⟨rfl, fun i s c a hf => exec_of_faultOf_some hf, fun i s hok => ?_, fun s hrun hpast => ?_,
    fun s t hrun hpc h => ?_⟩
  · obtain ⟨t, hexec, -⟩ := exec_answers_frameKept i s
    exact ⟨t, hexec, exec_fault hok hexec⟩
  · exact ⟨_, (stepCycle_next_iff s _).mpr (.inr (.inl ⟨hrun, hpast, rfl⟩)), rfl⟩
  · obtain ⟨hpast, -⟩ | ⟨-, c, a, hf, rfl⟩ | ⟨-, hok, hkept⟩ := stepCycle_fault_cases hrun h
    · omega
    · rw [hf]
      exact ⟨fun _ => faultOf_cause_ne_memFetch hf, rfl⟩
    · rw [hok]
      exact ⟨fun hhalted => by simp [hkept, hrun] at hhalted, hkept⟩

/-- Settles O42: a Step that faults is `faultedStep` with a record whose fpc is pc. -/
theorem faultsArePreciseAndAtomic : Obligations.FaultsArePreciseAndAtomic := by
  intro s t hrun h hhalted
  obtain ⟨-, rfl⟩ | ⟨-, c, a, -, rfl⟩ | ⟨-, -, hkept⟩ := stepCycle_fault_cases hrun h
  · exact ⟨rfl, rfl⟩
  · exact ⟨rfl, rfl⟩
  · simp [hkept, hrun] at hhalted

/-! ## Halted (R235) -/

/-- The record is sticky: only Reset changes it. -/
theorem applyEvent_fault_of_halted {e : Event} {s t : State} (hhalted : s.fault.halted = true)
    (he : ∀ seed, e ≠ .reset seed) (h : applyEvent e s = .next t) : t.fault = s.fault := by
  cases e with
  | reset seed => exact absurd rfl (he seed)
  | step =>
    obtain rfl : s = t := Host.Outcome.next.inj ((stepCycle_of_halted hhalted).symm.trans h)
    rfl
  | load b =>
    obtain ⟨-, rfl⟩ := (loadEvent_next_iff b s t).mp h
    exact load_fault s b
  | tick => cases h; exact tick_fault s
  | setKey k p => cases h; exact setKey_fault s k p
  | readFramebuffer => cases h; rfl

/-- Settles O43: the Step does nothing, and Tick and SetKey do not look at the record. -/
theorem haltedUntilReset : Obligations.HaltedUntilReset := by
  intro s hhalted
  exact ⟨stepCycle_of_halted hhalted, rfl, ⟨tick s, rfl, countDown_toNat s.DT, countDown_toNat s.ST⟩,
    fun k p => ⟨setKey k p s, rfl, keyDown_setKey_self s k p⟩, fun _ _ => applyEvent_fault_of_halted hhalted⟩

end Sys2Proof.Proofs
end

section
/-! Tick, SetKey and the output of R246 (spec/60_exceptions.md); the statements O10, O11 and O60. -/

namespace Sys2Proof.Proofs

open Sys2Proof Sys2Proof.Machine

/-- Settles O10: both timers go through `countDown`. -/
theorem tickCountsBothTimersDown : Obligations.TickCountsBothTimersDown := by
  intro s
  exact ⟨rfl, countDown_toNat s.DT, countDown_toNat s.ST⟩

/-- Settles O11: key k, and each other key. -/
theorem setKeyWritesOneKey : Obligations.SetKeyWritesOneKey := by
  intro k p s
  refine ⟨rfl, fun j => ?_⟩
  split
  · next hj => rw [hj, keyDown_setKey_self]
  · next hj => exact keyDown_setKey_ne s p hj

/-- R98: the no-op is what the unmapped words decode to, and no other. -/
theorem decodeWord_eq_nopUnmapped_iff (w : Word) : decodeWord w = .nopUnmapped w ↔ unmappedWord w = true := by
  refine ⟨fun hnop => unmappedWord_of_no_row fun r hr => ?_, decodeWord_of_unmapped⟩
  rw [← Bool.not_eq_true]
  intro hmatch
  exact build_ne_nopUnmapped r hr w w ((decodeWord_of_matchesWord r hr w hmatch).symm.trans hnop)

theorem dueEvent_eq_step_iff (s : State) :
    dueEvent s = .step ↔ s.schedule = [] ∨ ∃ rest, s.schedule = .step :: rest := by
  unfold dueEvent
  cases s.schedule with
  | nil => simp
  | cons e rest => simp

/-- Settles O60: the output's own conditions, and the Step at an unmapped word on the state with the rest of the
schedule. -/
theorem unmappedOutputMarksTheNoOp : Obligations.UnmappedOutputMarksTheNoOp := by
  intro s
  rw [← dueEvent_eq_step_iff, decodeWord_eq_nopUnmapped_iff]
  refine ⟨unmappedOutput_iff s, fun hout => ?_⟩
  obtain ⟨hdue, hrun, hpc, hunmapped⟩ := (unmappedOutput_iff s).mp hout
  obtain ⟨-, hstep, -⟩ := unmappedWordsDoNothing
  rw [step_due, hdue]
  exact hstep { s with schedule := s.schedule.tail } hrun hpc hunmapped

end Sys2Proof.Proofs
end

section
/-! Load and Reset (spec/70_reset_and_hazards.md): what a Load copies and when one is admitted, and the Step at zeroed
memory; the statements O12, O13, O15 and O57. -/

namespace Sys2Proof.Proofs

open Sys2Proof Sys2Proof.Machine

/-! ## Load (R272, R273) -/

theorem loadRejected_iff (b : List Byte) : loadRejected b = true ↔ Config.loadMax < b.length :=
  decide_eq_true_iff

/-- An accepted image ends at or below the top of memory, so every byte of it lands (R272). -/
theorem load_read {s : State} {b : List Byte} (hwf : s.memory.wf = true) (hb : b.length ≤ Config.loadMax) (a : Nat) :
    (load b s).memory.read a =
      if h : Config.loadBase ≤ a ∧ a < Config.loadBase + b.length then b[a - Config.loadBase] else s.memory.read a := by
  have hfits : Config.loadBase + b.length ≤ Config.memSize := Nat.add_le_add_left hb Config.loadBase
  rw [load_memory, if_pos hb, read_writeBytes hwf b hfits]

/-- A rejected image is not copied: only the admission of Loads is closed (R273, log entry 9). -/
theorem load_of_rejected {b : List Byte} (hb : Config.loadMax < b.length) (s : State) :
    load b s = { s with loadOpen := false } := by
  rw [load, if_pos ((loadRejected_iff b).mpr hb)]

/-- Settles O12: the two sides of LOAD_MAX; what an accepted image writes, and that a rejected one writes nothing. -/
theorem loadCopiesOrRejectsTheImage : Obligations.LoadCopiesOrRejectsTheImage := by
  intro b s hwf
  refine ⟨fun hb => ⟨?_, rfl, load_read hwf hb⟩, fun hb => ⟨(loadRejected_iff b).mpr hb, ?_⟩⟩
  · rw [← Bool.not_eq_true, loadRejected_iff]
    exact Nat.not_lt.mpr hb
  · rw [load_of_rejected hb]

/-! ## When a Load is admitted (R274, log entry 9) -/

/-- The first Step closes the admission of Loads, whether its fetch faults, its handler does, or it completes. -/
theorem stepCycle_loadOpen {s t : State} (hrun : s.fault.halted = false) (h : stepCycle s = .next t) :
    t.loadOpen = false := by
  obtain ⟨hhalted, -⟩ | ⟨-, -, rfl⟩ | ⟨-, -, hcommit⟩ := (stepCycle_next_iff s t).mp h
  · simp [hrun] at hhalted
  · exact faultedStep_loadOpen s _
  · obtain ⟨u, hexec, ⟨-, rfl⟩ | ⟨-, rfl⟩⟩ := (commit_next_iff s t _).mp hcommit
    · exact faultedStep_loadOpen s _
    · exact (exec_frameKept hexec).loadOpen.trans (preAdvanced_loadOpen s)

theorem stepCycle_loadOpen_of_closed {s t : State} (hclosed : s.loadOpen = false) (h : stepCycle s = .next t) :
    t.loadOpen = false := by
  cases hrun : s.fault.halted with
  | true =>
    obtain rfl : s = t := Host.Outcome.next.inj ((stepCycle_of_halted hrun).symm.trans h)
    exact hclosed
  | false => exact stepCycle_loadOpen hrun h

/-- Once closed, the admission stays closed through every event but Reset. -/
theorem applyEvent_loadOpen_of_closed {e : Event} {s t : State} (hclosed : s.loadOpen = false)
    (he : ∀ seed, e ≠ .reset seed) (h : applyEvent e s = .next t) : t.loadOpen = false := by
  cases e with
  | reset seed => exact absurd rfl (he seed)
  | step => exact stepCycle_loadOpen_of_closed hclosed h
  | load b =>
    obtain ⟨-, rfl⟩ := (loadEvent_next_iff b s t).mp h
    exact load_loadOpen s b
  | tick | setKey | readFramebuffer => cases h; exact hclosed

theorem loadEvent_of_closed {s : State} (hclosed : s.loadOpen = false) (b : List Byte) :
    loadEvent b s = .refused .loadOutOfPlace := by
  rw [loadEvent, hclosed]
  rfl

theorem dueEvent_eq_reset {s : State} {seed : Nat} (h : dueEvent s = .reset seed) :
    ∃ rest, s.schedule = .reset seed :: rest := by
  unfold dueEvent at h
  cases hschedule : s.schedule with
  | nil => simp [hschedule] at h
  | cons e rest =>
    obtain rfl : e = .reset seed := by simpa [hschedule] using h
    exact ⟨rest, rfl⟩

/-- Settles O13: a Load and a Step close the admission, and the event that is due opens it only as a Reset. -/
theorem lateLoadIsRefused : Obligations.LateLoadIsRefused := by
  refine ⟨fun b s t h => ?_, fun s t => stepCycle_loadOpen, fun b rest s hclosed => ?_,
    fun s t hclosed h hopen => ?_⟩
  · obtain ⟨-, rfl⟩ := (loadEvent_next_iff b s t).mp h
    exact load_loadOpen s b
  · rw [step_scheduled]
    exact loadEvent_of_closed (s := { s with schedule := rest }) hclosed b
  · rw [step_due] at h
    by_contra hnone
    have hnoReset : ∀ seed, dueEvent s ≠ .reset seed := fun seed hdue => hnone ⟨seed, dueEvent_eq_reset hdue⟩
    have hclosed' : ({ s with schedule := s.schedule.tail } : State).loadOpen = false := hclosed
    have hstays := applyEvent_loadOpen_of_closed hclosed' hnoReset h
    simp [hstays] at hopen

/-! ## Reset (R270, R271) -/

/-- Settles O15: a step performs the Reset on the state with the rest of the schedule, and `resetEvent` reads nothing
else of it but FONT. -/
theorem resetEventIsTotal : Obligations.ResetEventIsTotal :=
  fun s seed rest => step_scheduled s (.reset seed) rest

/-! ## Zeroed memory (R276) -/

theorem fetchedWord_of_zeroes {s : State} (hhi : s.memory.read s.pc.toNat = 0x00#8)
    (hlo : s.memory.read (s.pc.toNat + 1) = 0x00#8) : fetchedWord s = 0x0000#16 := by
  rw [fetchedWord, Memory.fetchWord, hhi, hlo]
  rfl

/-- Settles O57: the word 0x0000 is an alias of CLS, which writes only the framebuffer of the pre-advanced state. -/
theorem zeroedMemoryRunsAsClear : Obligations.ZeroedMemoryRunsAsClear := by
  intro s hrun hpc hhi hlo
  obtain ⟨-, hcls, -⟩ := writtenOutWordsDecode
  obtain ⟨-, hclear⟩ := clearTurnsEveryPixelOff
  obtain ⟨t, hexec, hframe, hoff⟩ := hclear (preAdvanced s)
  have hfetched : exec (decodeWord (fetchedWord s)) (preAdvanced s) = .next t := by
    rw [fetchedWord_of_zeroes hhi hlo, hcls, hexec]
  have hfault : t.fault = s.fault := (congrArg State.fault hframe).trans (preAdvanced_fault s)
  have hstep := stepCycle_of_exec hrun hpc hfetched
  rw [hfault, hrun] at hstep
  refine ⟨t, hstep, hoff, (congrArg State.pc hframe).trans (preAdvanced_pc s), ?_⟩
  rw [hframe]
  rfl

end Sys2Proof.Proofs
end
